-- ==== Sys2Proof/Word.lean ====
section
/-! DEFINITION. The widths MBCODEC's values have (spec/00_scope.md R9). -/

namespace Sys2Proof

/-- A data byte, an FBUF byte, a response byte, an 8-bit register (R9). -/
abbrev Byte := BitVec 8

/-- A command word and a CRC value (R9, R80). -/
abbrev Word := BitVec 16

/-- PTR and LEN: 9 bits, 0 to FBUF_SIZE (R8, R9). -/
abbrev Pointer := BitVec 9

/-- `v[7:0]` of a 16-bit value (R9). -/
def lowByte (v : Word) : Byte := v.extractLsb' 0 8

/-- `v[15:8]` of a 16-bit value (R9). -/
def highByte (v : Word) : Byte := v.extractLsb' 8 8

end Sys2Proof
end

