-- ==== Sys2Proof/Syntax.lean ====
section
/-! DEFINITION. The commands of spec/30_encoding.md R82, one constructor per row of spec/opcode_table.json. -/

namespace Sys2Proof

/-- A command with a row in the opcode table (R82). Every command word has an IMM byte (R80), so every
constructor carries it; the commands R81 says ignore it carry it too, since a non-zero IMM is accepted
there (R85). The commands ENCODE and DECODE are named for what they handle, a frame, to keep them apart
from the functions that encode and decode command words. -/
inductive Instr where
  /-- NOP, OP 0x00, IMM ignored (R180). -/
  | nop (imm : Byte)
  /-- CRC_INIT, OP 0x01, IMM ignored (R110). -/
  | crcInit (imm : Byte)
  /-- CRC_BYTE, OP 0x02, IMM = data byte (R111). -/
  | crcByte (imm : Byte)
  /-- SET_ADDR, OP 0x10, IMM = address byte (R124). -/
  | setAddr (imm : Byte)
  /-- SET_FC, OP 0x11, IMM = function-code byte (R125). -/
  | setFc (imm : Byte)
  /-- SET_PTR, OP 0x20, IMM = FBUF index (R121). -/
  | setPtr (imm : Byte)
  /-- BUF_WR, OP 0x21, IMM = data byte (R122). -/
  | bufWr (imm : Byte)
  /-- BUF_RD, OP 0x22, IMM ignored (R123). -/
  | bufRd (imm : Byte)
  /-- ENCODE, OP 0x30, IMM ignored (R142). -/
  | encodeFrame (imm : Byte)
  /-- DECODE, OP 0x31, IMM ignored (R150). -/
  | decodeFrame (imm : Byte)
  /-- RD_REG, OP 0x40, IMM = register index (R181). -/
  | rdReg (imm : Byte)
  /-- CLR_STATUS, OP 0x41, IMM ignored (R182). -/
  | clrStatus (imm : Byte)
deriving DecidableEq, Repr

/-- The IMM byte of a command (R80). -/
def Instr.imm : Instr → Byte
  | .nop b => b
  | .crcInit b => b
  | .crcByte b => b
  | .setAddr b => b
  | .setFc b => b
  | .setPtr b => b
  | .bufWr b => b
  | .bufRd b => b
  | .encodeFrame b => b
  | .decodeFrame b => b
  | .rdReg b => b
  | .clrStatus b => b

/-- The same command with another IMM byte. -/
def Instr.withImm (b : Byte) : Instr → Instr
  | .nop _ => .nop b
  | .crcInit _ => .crcInit b
  | .crcByte _ => .crcByte b
  | .setAddr _ => .setAddr b
  | .setFc _ => .setFc b
  | .setPtr _ => .setPtr b
  | .bufWr _ => .bufWr b
  | .bufRd _ => .bufRd b
  | .encodeFrame _ => .encodeFrame b
  | .decodeFrame _ => .decodeFrame b
  | .rdReg _ => .rdReg b
  | .clrStatus _ => .clrStatus b

/-- Whether the command ignores IMM: the list of R183. -/
def Instr.ignoresImm : Instr → Bool
  | .nop _ => true
  | .crcInit _ => true
  | .crcByte _ => false
  | .setAddr _ => false
  | .setFc _ => false
  | .setPtr _ => false
  | .bufWr _ => false
  | .bufRd _ => true
  | .encodeFrame _ => true
  | .decodeFrame _ => true
  | .rdReg _ => false
  | .clrStatus _ => true

end Sys2Proof
end

