-- ==== Sys2Proof/WellFormed.lean ====
section
/-! DEFINITION. Which commands software may write: IMM is zero where the command ignores it (spec/30_encoding.md R85, R90). -/

namespace Sys2Proof

/-- R85: in the commands whose IMM is ignored, IMM is "should be zero", and R90 assembles it as 0; any IMM is
well formed in the others. The block itself accepts every IMM (R83, R85): nothing in `step` asks for this
check (log entry 15). -/
def Instr.wellFormed : Instr → Bool
  | .nop imm => imm == 0#8
  | .crcInit imm => imm == 0#8
  | .crcByte _ => true
  | .setAddr _ => true
  | .setFc _ => true
  | .setPtr _ => true
  | .bufWr _ => true
  | .bufRd imm => imm == 0#8
  | .encodeFrame imm => imm == 0#8
  | .decodeFrame imm => imm == 0#8
  | .rdReg _ => true
  | .clrStatus imm => imm == 0#8

end Sys2Proof
end

