-- ==== Sys2Proof/Decode.lean ====
section
/-! DEFINITION. Command words to commands and back (spec/30_encoding.md R80 to R87). -/

namespace Sys2Proof

/-- What a command word selects (R83): a command of the table, or a reserved command (R84). -/
inductive Command where
  /-- A row of R82. -/
  | instr (i : Instr)
  /-- A word whose OP is in no row of R82, with its OP and IMM (R84). -/
  | reserved (op : Byte) (imm : Byte)
deriving DecidableEq, Repr

/-- A row of the opcode map: OP, and the command it selects for each IMM (R82). -/
structure OpcodeRow where
  op : Byte
  build : Byte → Instr

/-- The opcode map of R82, in its order. -/
def opcodeMap : List OpcodeRow :=
  [⟨0x00#8, .nop⟩, ⟨0x01#8, .crcInit⟩, ⟨0x02#8, .crcByte⟩,
   ⟨0x10#8, .setAddr⟩, ⟨0x11#8, .setFc⟩,
   ⟨0x20#8, .setPtr⟩, ⟨0x21#8, .bufWr⟩, ⟨0x22#8, .bufRd⟩,
   ⟨0x30#8, .encodeFrame⟩, ⟨0x31#8, .decodeFrame⟩,
   ⟨0x40#8, .rdReg⟩, ⟨0x41#8, .clrStatus⟩]

/-- OP, bits 15:8 of the command word (R80). -/
def opField (w : Word) : Byte := w.extractLsb' 8 8

/-- IMM, bits 7:0 of the command word (R80). -/
def immField (w : Word) : Byte := w.extractLsb' 0 8

/-- The command OP and IMM select: OP alone decides which (R82). -/
def decodeFields (op imm : Byte) : Command :=
  match opcodeMap.find? (fun row => row.op == op) with
  | some row => .instr (row.build imm)
  | none => .reserved op imm

/-- Decoding of a command word: total, every word selects a command or is reserved by name (R83). -/
def decodeWord (w : Word) : Command := decodeFields (opField w) (immField w)

/-- The opcode of a command (R82). -/
def Instr.opcode : Instr → Byte
  | .nop _ => 0x00#8
  | .crcInit _ => 0x01#8
  | .crcByte _ => 0x02#8
  | .setAddr _ => 0x10#8
  | .setFc _ => 0x11#8
  | .setPtr _ => 0x20#8
  | .bufWr _ => 0x21#8
  | .bufRd _ => 0x22#8
  | .encodeFrame _ => 0x30#8
  | .decodeFrame _ => 0x31#8
  | .rdReg _ => 0x40#8
  | .clrStatus _ => 0x41#8

/-- The word of format C with these fields, `(OP << 8) | IMM` (R80, R90). -/
def encodeFields (op imm : Byte) : Word := op ++ imm

/-- The word of a command of the table (R80, R82). -/
def encode (i : Instr) : Word := encodeFields i.opcode i.imm

/-- Whether OP is one of the 244 reserved opcodes, by the ranges R84 lists. -/
def reservedOpcode (op : Byte) : Bool :=
  (0x03 ≤ op.toNat && op.toNat ≤ 0x0F) || (0x12 ≤ op.toNat && op.toNat ≤ 0x1F) ||
  (0x23 ≤ op.toNat && op.toNat ≤ 0x2F) || (0x32 ≤ op.toNat && op.toNat ≤ 0x3F) ||
  (0x42 ≤ op.toNat && op.toNat ≤ 0xFF)

/-- The opcode of any command. -/
def Command.opcode : Command → Byte
  | .instr i => i.opcode
  | .reserved op _ => op

/-- A command is the decoding of a word when a reserved one carries a reserved opcode (R84). -/
def Command.wellFormed : Command → Bool
  | .instr _ => true
  | .reserved op _ => reservedOpcode op

/-- The word of any command, the reserved ones among them (R80). -/
def Command.encode : Command → Word
  | .instr i => Sys2Proof.encode i
  | .reserved op imm => encodeFields op imm

/-- The command of the table that a word of `nbits` bits selects, none for a reserved word. A command is one
16-bit transfer (R87), so the table's bit numbers are the word's own. -/
def decodeTableWord (nbits w : Nat) : Option Instr :=
  match decodeWord (BitVec.ofNat 16 (w % 2 ^ nbits)) with
  | .instr i => some i
  | .reserved _ _ => none

end Sys2Proof
end

