-- ==== Sys2Proof/Config.lean ====
section
/-! DEFINITION. The implementation parameters of spec/00_scope.md R8. -/

namespace Sys2Proof.Config

/-- FBUF_SIZE of MBCODEC (R8: 256 bytes). A state carries its build's own value in `State.fbufSize`
(log entry 2); this is the value of the reset state. -/
def fbufSize : Nat := 256

/-- The values R8 allows for FBUF_SIZE: 5 to 256. -/
abbrev legalFbufSize (n : Nat) : Prop := 5 ≤ n ∧ n ≤ 256

/-- ID_VALUE (R8, spec/10_state.md R39): fixed at 0x01. -/
def idValue : Byte := 0x01#8

/-- The reflected polynomial of the CRC (R3). -/
def crcPolynomial : Word := 0xA001#16

/-- The initial value of the CRC (R3). -/
def crcInitial : Word := 0xFFFF#16

/-- CYCLES_CRC_BYTE (R8: OPEN, any positive number). No rule reads it: the model has no time
(spec/70_reset_and_hazards.md R258, log entry 12). -/
opaque cyclesCrcByte : ℕ+

/-- CYCLES_ENCODE(N) (R8: OPEN, any positive number), read by no rule (R258, log entry 12). -/
opaque cyclesEncode : Nat → ℕ+

/-- CYCLES_DECODE(L) (R8: OPEN, any positive number), read by no rule (R258, log entry 12). -/
opaque cyclesDecode : Nat → ℕ+

end Sys2Proof.Config
end

