-- ==== Sys2Proof/Machine/State.lean ====
section
/-! DEFINITION. MBCODEC's architectural state (spec/10_state.md), its reset value (spec/70_reset_and_hazards.md R240)
and the reasons a step can stop. -/

namespace Sys2Proof.Machine

/-- Why a command has no result state. The block itself never traps (spec/60_exceptions.md R200); both reasons are the model's. -/
inductive Fault where
  /-- A MemRead of an FBUF byte never written since reset. Raised by BUF_RD, ENCODE and DECODE (spec/20_memory.md R64).
  Safe: the hardware returns an unspecified byte and goes on (log entry 1). -/
  | fbufUnwritten (addr : Nat)
  /-- An access to an FBUF address at or past FBUF_SIZE, which does not exist (R63). Raised by BUF_WR, BUF_RD and DECODE in
  states with PTR over FBUF_SIZE, which no run reaches (spec/41_buffer.md R126). Safe (log entry 7). -/
  | fbufNoSuchAddress (addr : Nat)
deriving DecidableEq, Repr

/-- Why the model gives a command no meaning. -/
inductive Refusal where
  /-- A command whose meaning is not written yet; raised by `exec`'s arms only. Safe. No arm of this model raises it. -/
  | notModelled (mnemonic : String)
deriving DecidableEq, Repr

/-- FBUF's bytes that have been written since reset, as pairs of address and byte with the addresses strictly rising.
An address that is not listed has its `written` bit false and holds no value (spec/10_state.md R41, log entries 1 and 10). -/
abbrev Memory := List Host.Cell

/-- One thing the host does to the block. -/
inductive HostInput where
  /-- A command word on the command port (R45). -/
  | command (word : Word)
  /-- rst_n asserted, between commands or while the command `inProgress` runs, which is abandoned
  (spec/70_reset_and_hazards.md R240, R241, log entry 4). -/
  | reset (inProgress : Option Word)
deriving DecidableEq, Repr

/-- The host's side of a run (R21): its list of inputs and the index of the next one. -/
structure HostSide where
  program : List HostInput
  index : Nat
deriving DecidableEq, Repr

/-- The state of the block (R22, R41, R44), with its build parameter and the host's side of the run.
STATUS.CRC_ZERO and ID are not stored: the one is computed from CRC (R34), the other is a constant (R39). -/
@[ext]
structure State where
  /-- FBUF_SIZE of this build (spec/00_scope.md R8, log entry 2); no command and no reset changes it. -/
  fbufSize : Nat
  /-- CRC (R23). -/
  crc : Word
  /-- ADDR (R24). -/
  addr : Byte
  /-- FC (R25). -/
  fc : Byte
  /-- PTR (R26). -/
  ptr : Pointer
  /-- LEN (R27). -/
  len : Pointer
  /-- RX_ADDR (R28). -/
  rxAddr : Byte
  /-- RX_FC (R29). -/
  rxFc : Byte
  /-- EXC (R30). -/
  exc : Byte
  /-- RXCRC (R38). -/
  rxCrc : Word
  /-- STATUS.RESULT, three bits of which codes 0 to 4 are ever written (R31). -/
  result : BitVec 3
  /-- STATUS.ADDR_MATCH (R32). -/
  addrMatch : Bool
  /-- STATUS.FC_MATCH (R33). -/
  fcMatch : Bool
  /-- STATUS.OVF, sticky (R35). -/
  ovf : Bool
  /-- STATUS.ILL, sticky (R36). -/
  ill : Bool
  /-- FBUF and its `written` bits (R40, R41). -/
  fbuf : Memory
  /-- The bytes the response port has carried since reset, oldest first (R44, log entry 6). -/
  responses : List Byte
  /-- The host's commands and where it stands in them (R21, log entry 3). -/
  host : HostSide
deriving DecidableEq, Repr

/-- The state of a build with the given FBUF_SIZE right after reset, the host's side as given (R240). -/
def State.resetWith (size : Nat) (host : HostSide) : State where
  fbufSize := size
  crc := 0xFFFF#16
  addr := 0x00#8
  fc := 0x00#8
  ptr := 0#9
  len := 0#9
  rxAddr := 0x00#8
  rxFc := 0x00#8
  exc := 0x00#8
  rxCrc := 0x0000#16
  result := 0#3
  addrMatch := false
  fcMatch := false
  ovf := false
  ill := false
  fbuf := []
  responses := []
  host := host

/-- MBCODEC right after reset (R240), with FBUF_SIZE = 256 (spec/00_scope.md R8) and a host that has issued nothing. -/
def State.reset : State := State.resetWith Config.fbufSize ⟨[], 0⟩

end Sys2Proof.Machine
end

