-- ==== Sys2Proof/Machine/Ops.lean ====
section
/-! DEFINITION. The shared operations of spec/00_scope.md R10: MemRead and MemWrite over FBUF, `emit`, and the host's
index. MBCODEC takes no exception and returns from none (spec/60_exceptions.md R206, R207), so no such operation is here. -/

namespace Sys2Proof.Machine

/-- What a command answers. -/
abbrev Result := Host.Outcome State Fault Refusal

/-- The byte a memory lists at an address, none where the address was never written (spec/10_state.md R41). -/
def Memory.byteAt : Memory → Nat → Option Byte
  | [], _ => none
  | (k, v) :: rest, a => if k = a then some v else Memory.byteAt rest a

/-- The memory with one byte stored; the addresses stay strictly rising. -/
def Memory.setByte : Memory → Nat → Byte → Memory
  | [], a, v => [(a, v)]
  | (k, w) :: rest, a, v =>
    if a < k then (a, v) :: (k, w) :: rest
    else if a = k then (a, v) :: rest
    else (k, w) :: Memory.setByte rest a v

/-- The canonical form: addresses strictly rising. An unlisted address reads as no value, so no entry equals it. -/
abbrev Memory.wf (m : Memory) : Prop := m.Pairwise (fun x y => x.1 < y.1)

/-- `written[a]` (spec/10_state.md R41): true exactly for the listed addresses. -/
def State.isWritten (s : State) (a : Nat) : Bool := (s.fbuf.byteAt a).isSome

/-- MemRead(a, 1) (spec/20_memory.md R63, R64). -/
def memRead (s : State) (a : Nat) : Except Fault Byte :=
  if a < s.fbufSize then
    match s.fbuf.byteAt a with
    | some v => .ok v
    | none => .error (.fbufUnwritten a)
  else .error (.fbufNoSuchAddress a)

/-- The state with one FBUF byte stored and marked written (R63). -/
def storeByte (a : Nat) (v : Byte) (s : State) : State := { s with fbuf := s.fbuf.setByte a v }

/-- MemWrite(a, 1, v) (R63). -/
def memWrite (s : State) (a : Nat) (v : Byte) : Except Fault State :=
  if a < s.fbufSize then .ok (storeByte a v s)
  else .error (.fbufNoSuchAddress a)

/-- `[MemRead(i, 1) for i in a .. a + n - 1]`, in rising order (spec/42_frame.md R142, R150). -/
def memReadRange (s : State) : Nat → Nat → Except Fault (List Byte)
  | _, 0 => .ok []
  | a, n + 1 => do
    let v ← memRead s a
    let rest ← memReadRange s (a + 1) n
    return v :: rest

/-- The outcome of a command that is a sequence of FBUF accesses: its result state, or the fault of the first access that
faults, with none of the command's writes (R64: the command has no result state). -/
def finish : Except Fault State → Result
  | .ok s => .next s
  | .error f => .fault f

/-- `emit(v)`: one byte on the response port (spec/10_state.md R44). -/
def emit (v : Byte) (s : State) : State := { s with responses := s.responses ++ [v] }

/-- `PTR <- PTR + 1`, the post-increment of BUF_WR and BUF_RD (spec/41_buffer.md R120). -/
def advancePtr (s : State) : State := { s with ptr := s.ptr + 1#9 }

/-- The host's index moves on by one (spec/10_state.md R21). -/
def advanceHost (s : State) : State := { s with host.index := s.host.index + 1 }

/-- A step's outcome with the host's index moved on, where there is a next state. -/
def thenAdvanceHost : Result → Result
  | .next s => .next (advanceHost s)
  | .fault f => .fault f
  | .refused r => .refused r

/-- The host input at the index, none when the host has issued all of its list (R21, R44). -/
def nextInput (s : State) : Option HostInput := s.host.program[s.host.index]?

/-- The state in which the host's next input is this one: it takes the place of the input at the index, or is appended when
the list ends there. A list shorter than the index, which no run reaches, is first filled up with NOPs (log entry 16). -/
def placeNextInput (s : State) (input : HostInput) : State :=
  let before := s.host.program.take s.host.index
  let fill := List.replicate (s.host.index - s.host.program.length) (HostInput.command 0x0000#16)
  { s with host.program := before ++ fill ++ input :: s.host.program.drop (s.host.index + 1) }

/-- rst_n asserted (spec/70_reset_and_hazards.md R240, R241): every register, FBUF's written bits and the response port are
replaced by their reset values, whatever command was in progress. The build and the host are not the block's registers and stay
(log entries 2 and 4). -/
def applyReset (_inProgress : Option Word) (s : State) : State := State.resetWith s.fbufSize s.host

end Sys2Proof.Machine
end

