-- ==== Sys2Proof/Machine/Flags.lean ====
section
/-! DEFINITION. The STATUS fields: their codes, their updates and the STATUS byte (spec/10_state.md R31 to R37). -/

namespace Sys2Proof.Machine

/-- RESULT codes (R31). -/
def resultOk : BitVec 3 := 0#3
/-- FramingError.ShortFrame (R31). -/
def resultShortFrame : BitVec 3 := 1#3
/-- FramingError.CrcMismatch (R31). -/
def resultCrcMismatch : BitVec 3 := 2#3
/-- FramingError.UnexpectedFunctionCode: an exception response (R31). -/
def resultException : BitVec 3 := 3#3
/-- ENCODE found PTR outside 2 to FBUF_SIZE - 2 (R31). -/
def resultLength : BitVec 3 := 4#3

/-- `set_result(r)` (spec/00_scope.md R10). -/
def setResult (r : BitVec 3) (s : State) : State := { s with result := r }

/-- ADDR_MATCH and FC_MATCH written together, as ENCODE and DECODE do (R32, R33). -/
def setMatch (addrMatch fcMatch : Bool) (s : State) : State :=
  { s with addrMatch := addrMatch, fcMatch := fcMatch }

/-- `STATUS.OVF <- 1` (R35). -/
def setOvf (s : State) : State := { s with ovf := true }

/-- `STATUS.ILL <- 1` (R36). -/
def setIll (s : State) : State := { s with ill := true }

/-- All stored STATUS fields cleared (spec/43_control.md R182). -/
def clearStatus (s : State) : State :=
  { s with result := resultOk, addrMatch := false, fcMatch := false, ovf := false, ill := false }

/-- STATUS.CRC_ZERO, computed at each read (R34). -/
def crcZero (s : State) : Bool := s.crc == 0x0000#16

/-- The STATUS byte, with ILL in bit 7 and RESULT in bits 2:0 (R37). -/
def statusByte (s : State) : Byte :=
  BitVec.ofBool s.ill ++ BitVec.ofBool s.ovf ++ BitVec.ofBool (crcZero s) ++
    BitVec.ofBool s.fcMatch ++ BitVec.ofBool s.addrMatch ++ s.result

end Sys2Proof.Machine
end

