-- ==== Sys2Proof/Machine/Operands.lean ====
section
/-! DEFINITION. The operand forms of spec/30_encoding.md R81, FBUF's one addressing mode and the register index space. -/

namespace Sys2Proof.Machine

/-- IMM as an unsigned data byte: CRC_BYTE, BUF_WR, SET_ADDR, SET_FC (R81). -/
def dataOperand (imm : Byte) : Byte := imm

/-- IMM as an FBUF index, `zext_9(IMM)`: SET_PTR (R81). -/
def indexOperand (imm : Byte) : Pointer := imm.setWidth 9

/-- The effective address of BUF_WR and BUF_RD: PTR as it stands before the command (spec/41_buffer.md R120). -/
def effectiveAddress (s : State) : Nat := s.ptr.toNat

/-- Whether PTR is one past the last byte, where BUF_WR and BUF_RD record OVF (R122, R123). -/
def ptrAtEnd (s : State) : Bool := s.ptr.toNat == s.fbufSize

/-- Bits 7:0 of a 9-bit register (spec/10_state.md R42). -/
def pointerLow (p : Pointer) : Byte := p.extractLsb' 0 8

/-- `zext_8` of bit 8 of a 9-bit register (R42). -/
def pointerHigh (p : Pointer) : Byte := (p.extractLsb' 8 1).setWidth 8

/-- The register index space (R42): the byte at an index 0x00 to 0x0E, none at a reserved index. -/
def regByte (s : State) (index : Byte) : Option Byte :=
  match index.toNat with
  | 0x00 => some (statusByte s)
  | 0x01 => some (lowByte s.crc)
  | 0x02 => some (highByte s.crc)
  | 0x03 => some s.addr
  | 0x04 => some s.fc
  | 0x05 => some (pointerLow s.ptr)
  | 0x06 => some (pointerHigh s.ptr)
  | 0x07 => some (pointerLow s.len)
  | 0x08 => some (pointerHigh s.len)
  | 0x09 => some s.rxAddr
  | 0x0A => some s.rxFc
  | 0x0B => some s.exc
  | 0x0C => some (lowByte s.rxCrc)
  | 0x0D => some (highByte s.rxCrc)
  | 0x0E => some Config.idValue
  | _ => none

end Sys2Proof.Machine
end

