-- ==== Sys2Proof/Machine/Buffer.lean ====
section
/-! DEFINITION. Buffer and header loading (spec/41_buffer.md). -/

namespace Sys2Proof.Machine

/-- SET_PTR (R121): out of range records OVF and leaves PTR. -/
def execSetPtr (imm : Byte) (s : State) : Result :=
  if (indexOperand imm).toNat > s.fbufSize then .next (setOvf s)
  else .next { s with ptr := indexOperand imm }

/-- BUF_WR (R122): at the end the byte is dropped and OVF recorded. -/
def execBufWr (imm : Byte) (s : State) : Result :=
  if ptrAtEnd s then .next (setOvf s)
  else finish do
    let t ← memWrite s (effectiveAddress s) (dataOperand imm)
    return advancePtr t

/-- BUF_RD (R123): at the end the response byte is 0x00 and OVF is recorded. -/
def execBufRd (_imm : Byte) (s : State) : Result :=
  if ptrAtEnd s then .next (emit 0x00#8 (setOvf s))
  else finish do
    let v ← memRead s (effectiveAddress s)
    return advancePtr (emit v s)

/-- SET_ADDR (R124). -/
def execSetAddr (imm : Byte) (s : State) : Result := .next { s with addr := dataOperand imm }

/-- SET_FC (R125). -/
def execSetFc (imm : Byte) (s : State) : Result := .next { s with fc := dataOperand imm }

end Sys2Proof.Machine
end

