-- ==== Sys2Proof/Machine/Control.lean ====
section
/-! DEFINITION. Control and register-access commands, and the reserved commands (spec/43_control.md). -/

namespace Sys2Proof.Machine

/-- NOP (R180): no state changes. -/
def execNop (_imm : Byte) (s : State) : Result := .next s

/-- RD_REG (R181): a reserved index answers 0x00 and records ILL. -/
def execRdReg (imm : Byte) (s : State) : Result :=
  match regByte s imm with
  | some v => .next (emit v s)
  | none => .next (emit 0x00#8 (setIll s))

/-- CLR_STATUS (R182). -/
def execClrStatus (_imm : Byte) (s : State) : Result := .next (clearStatus s)

/-- A reserved command (R184): ILL, and nothing else. It has no row in the opcode table, so `Machine.Port` calls it beside `exec`
(log entry 8). -/
def execReserved (_op _imm : Byte) (s : State) : Result := .next (setIll s)

end Sys2Proof.Machine
end

