-- ==== Sys2Proof/Machine/Crc.lean ====
section
/-! DEFINITION. CRC-16/MODBUS and the streaming commands (spec/40_crc.md). -/

namespace Sys2Proof.Machine

/-- One shift of R100: the bit about to be shifted out is tested. -/
def crcShift (c : Word) : Word :=
  if c.getLsbD 0 then (c >>> 1) ^^^ Config.crcPolynomial else c >>> 1

/-- `n` shifts. -/
def crcShifts : Nat → Word → Word
  | 0, c => c
  | n + 1, c => crcShifts n (crcShift c)

/-- `crc16_byte(c, b)` (R100). -/
def crc16Byte (c : Word) (b : Byte) : Word := crcShifts 8 (c ^^^ b.setWidth 16)

/-- `crc16(c, bytes)` (R101). -/
def crc16 : Word → List Byte → Word
  | c, [] => c
  | c, b :: bs => crc16 (crc16Byte c b) bs

/-- The CRC of a frame body, `crc16(0xFFFF, S)`, with no final XOR (R101). -/
def bodyCrc (body : List Byte) : Word := crc16 Config.crcInitial body

/-- CRC_INIT (R110). -/
def execCrcInit (_imm : Byte) (s : State) : Result := .next { s with crc := Config.crcInitial }

/-- CRC_BYTE (R111). -/
def execCrcByte (imm : Byte) (s : State) : Result :=
  .next { s with crc := crc16Byte s.crc (dataOperand imm) }

end Sys2Proof.Machine
end

