-- ==== Sys2Proof/Machine/Frame.lean ====
section
/-! DEFINITION. The frame serializer ENCODE and deserializer DECODE (spec/42_frame.md). -/

namespace Sys2Proof.Machine

/-- ENCODE's bound on P = PTR: 2 <= P <= FBUF_SIZE - 2 (R141). -/
def encodeInBounds (s : State) : Bool := decide (2 ≤ s.ptr.toNat) && decide (s.ptr.toNat ≤ s.fbufSize - 2)

/-- ENCODE within its bound (R142): header, body CRC, CRC bytes little-endian, then the registers. -/
def buildFrame (s : State) : Except Fault State := do
  let p := s.ptr.toNat
  let s ← memWrite s 0 s.addr
  let s ← memWrite s 1 s.fc
  let body ← memReadRange s 0 p
  let c := bodyCrc body
  let s ← memWrite s p (lowByte c)
  let s ← memWrite s (p + 1) (highByte c)
  return setMatch false false (setResult resultOk { s with crc := c, len := s.ptr + 2#9, ptr := 0#9 })

/-- ENCODE (R142); outside its bound it records LENGTH, clears the match bits and changes nothing else (R141). -/
def execEncodeFrame (_imm : Byte) (s : State) : Result :=
  if encodeInBounds s then finish (buildFrame s)
  else .next (setMatch false false (setResult resultLength s))

/-- The trailing CRC of an L-byte frame, `(MemRead(L-1, 1), MemRead(L-2, 1))` with the byte at L-1 high (R150,
spec/10_state.md R38). -/
def readTrailingCrc (s : State) (l : Nat) : Except Fault Word := do
  let hi ← memRead s (l - 1)
  let lo ← memRead s (l - 2)
  return hi ++ lo

/-- DECODE's last check, on a frame whose CRC is valid: an exception response needs a fifth byte (R150, R154). -/
def acceptFrame (body : List Byte) (l : Nat) (s : State) : State :=
  if (body.getD 1 0#8).getLsbD 7 then
    if l < 5 then setResult resultShortFrame s
    else { setResult resultException s with exc := body.getD 2 0#8, ptr := 2#9 }
  else { setResult resultOk s with ptr := 2#9 }

/-- DECODE on a frame of L >= 4 bytes whose body and trailing CRC have been read (R150): both CRC registers are written in
every outcome (R151), the receive registers and match bits only when the CRC is valid (R152, R155). -/
def checkFrame (body : List Byte) (rx : Word) (l : Nat) (s : State) : State :=
  let c := bodyCrc body
  let s := { s with crc := c, rxCrc := rx }
  if c != rx then setMatch false false (setResult resultCrcMismatch s)
  else
    let a := body.getD 0 0#8
    let f := body.getD 1 0#8
    acceptFrame body l (setMatch (a == s.addr) (f == s.fc) { s with rxAddr := a, rxFc := f })

/-- DECODE (R150) of the L = PTR bytes at FBUF[0] (R147); a frame under 4 bytes is short and no byte of it is read (R149). -/
def execDecodeFrame (_imm : Byte) (s : State) : Result :=
  let l := s.ptr.toNat
  let s := { s with len := s.ptr }
  if l < 4 then .next (setMatch false false (setResult resultShortFrame s))
  else finish do
    let body ← memReadRange s 0 (l - 2)
    let rx ← readTrailingCrc s l
    return checkFrame body rx l s

end Sys2Proof.Machine
end

