-- ==== Sys2Proof/Machine/Dispatch.lean ====
section
/-! DEFINITION. One arm per command of the opcode table. -/

namespace Sys2Proof.Machine

def exec (i : Instr) (s : State) : Host.Outcome State Fault Refusal :=
  match i with
  | .nop imm => Sys2Proof.Machine.execNop imm s
  | .crcInit imm => Sys2Proof.Machine.execCrcInit imm s
  | .crcByte imm => Sys2Proof.Machine.execCrcByte imm s
  | .setAddr imm => Sys2Proof.Machine.execSetAddr imm s
  | .setFc imm => Sys2Proof.Machine.execSetFc imm s
  | .setPtr imm => Sys2Proof.Machine.execSetPtr imm s
  | .bufWr imm => Sys2Proof.Machine.execBufWr imm s
  | .bufRd imm => Sys2Proof.Machine.execBufRd imm s
  | .encodeFrame imm => Sys2Proof.Machine.execEncodeFrame imm s
  | .decodeFrame imm => Sys2Proof.Machine.execDecodeFrame imm s
  | .rdReg imm => Sys2Proof.Machine.execRdReg imm s
  | .clrStatus imm => Sys2Proof.Machine.execClrStatus imm s

end Sys2Proof.Machine
end

