-- ==== Sys2Proof/Machine/Port.lean ====
section
/-! DEFINITION. What the block does with one input of the host: a command word on the port, or rst_n
(spec/10_state.md R45, spec/70_reset_and_hazards.md R241). -/

namespace Sys2Proof.Machine

/-- Any command, the reserved ones among them (spec/30_encoding.md R83). -/
def execCommand (c : Command) (s : State) : Result :=
  match c with
  | .instr i => exec i s
  | .reserved op imm => execReserved op imm s

/-- The block takes one input: a command word runs as one atomic step (spec/20_memory.md R66), a reset replaces the state
(R241). -/
def serve (input : HostInput) (s : State) : Result :=
  match input with
  | .command w => execCommand (decodeWord w) s
  | .reset inProgress => .next (applyReset inProgress s)

/-- The block with no command on the port waits (spec/70_reset_and_hazards.md R242, log entry 3). -/
def awaitCommand (s : State) : Result := .next s

end Sys2Proof.Machine
end

