-- ==== Sys2Proof/Machine/Step.lean ====
section
/-! DEFINITION. One step of the machine, and how the host's next command is placed. -/

namespace Sys2Proof.Machine

/-- One step: the block takes the host's next input, and the host's index goes up by one (spec/10_state.md R21); with none left
it waits (spec/70_reset_and_hazards.md R242). -/
def step (s : State) : Host.Outcome State Fault Refusal :=
  match nextInput s with
  | some input => thenAdvanceHost (serve input s)
  | none => awaitCommand s

/-- The state whose host issues this word next (log entry 5). -/
def State.withFetchWord (s : State) (nbits w : Nat) : State :=
  placeNextInput s (.command (BitVec.ofNat 16 (w % 2 ^ nbits)))

end Sys2Proof.Machine
end

