-- ==== Sys2Proof/Machine/Assembler.lean ====
section
/-! DEFINITION. The assembler notation and the pseudo-instructions of spec/30_encoding.md R90 and R91: notation only, no
step of the machine reads it. -/

namespace Sys2Proof.Machine

/-- A pseudo-instruction (R91). -/
inductive Pseudo where
  /-- `LOAD off, b0, ..., bk`. -/
  | load (off : Byte) (bytes : List Byte)
  /-- `HDR a, f`. -/
  | hdr (a f : Byte)
  /-- `CRC_BLOCK b0, ..., bk`. -/
  | crcBlock (bytes : List Byte)
  /-- `READ n`. -/
  | read (n : Nat)
  /-- `REWIND`. -/
  | rewind
  /-- `RD_CRC`. -/
  | rdCrc
  /-- `RD_STATUS`. -/
  | rdStatus
deriving DecidableEq, Repr

/-- A pseudo-instruction is exactly its expansion (R91). -/
def expandPseudo : Pseudo → List Instr
  | .load off bytes => .setPtr off :: bytes.map .bufWr
  | .hdr a f => [.setAddr a, .setFc f]
  | .crcBlock bytes => .crcInit 0#8 :: bytes.map .crcByte
  | .read n => List.replicate n (.bufRd 0#8)
  | .rewind => [.setPtr 0#8]
  | .rdCrc => [.rdReg 0x01#8, .rdReg 0x02#8]
  | .rdStatus => [.rdReg 0x00#8]

/-- Why a line does not assemble (R90). -/
inductive AsmError where
  /-- The mnemonic is in neither R82 nor R91. -/
  | unknownMnemonic
  /-- The number of operands is not the one R90 or R91 gives. -/
  | wrongOperands
  /-- An operand is not a decimal or `0x` hexadecimal number. -/
  | notANumber
  /-- An operand byte is over 255. -/
  | immOutOfRange
deriving DecidableEq, Repr

/-- A mnemonic of R82, whether it takes an operand, and its command. -/
structure AsmRow where
  spelling : List Char
  takesOperand : Bool
  build : Byte → Instr

/-- The mnemonics, spelt as in R82. -/
def asmRows : List AsmRow :=
  [⟨"NOP".toList, false, .nop⟩, ⟨"CRC_INIT".toList, false, .crcInit⟩, ⟨"CRC_BYTE".toList, true, .crcByte⟩,
   ⟨"SET_ADDR".toList, true, .setAddr⟩, ⟨"SET_FC".toList, true, .setFc⟩, ⟨"SET_PTR".toList, true, .setPtr⟩,
   ⟨"BUF_WR".toList, true, .bufWr⟩, ⟨"BUF_RD".toList, false, .bufRd⟩, ⟨"ENCODE".toList, false, .encodeFrame⟩,
   ⟨"DECODE".toList, false, .decodeFrame⟩, ⟨"RD_REG".toList, true, .rdReg⟩,
   ⟨"CLR_STATUS".toList, false, .clrStatus⟩]

/-- An operand of one byte: 0 to 255, else an assembly error (R90). -/
def asmByte (n : Nat) : Except AsmError Byte :=
  if n ≤ 255 then .ok (BitVec.ofNat 8 n) else .error .immOutOfRange

/-- Operands of one byte each. -/
def asmBytes : List Nat → Except AsmError (List Byte)
  | [] => .ok []
  | n :: ns => do
    let b ← asmByte n
    let bs ← asmBytes ns
    return b :: bs

/-- A command of R82 with its operands; a command that ignores IMM takes none and gets IMM = 0 (R90). -/
def assembleCommand (row : AsmRow) (operands : List Nat) : Except AsmError (List Instr) :=
  match row.takesOperand, operands with
  | true, [n] => do
    let b ← asmByte n
    return [row.build b]
  | false, [] => .ok [row.build 0#8]
  | _, _ => .error .wrongOperands

/-- A pseudo-instruction of R91 with its operands. -/
def assemblePseudo (spelling : List Char) (operands : List Nat) : Except AsmError (List Instr) :=
  if spelling = "LOAD".toList then
    match operands with
    | off :: bytes => do
      let o ← asmByte off
      let bs ← asmBytes bytes
      return expandPseudo (.load o bs)
    | [] => .error .wrongOperands
  else if spelling = "HDR".toList then
    match operands with
    | [a, f] => do
      let a ← asmByte a
      let f ← asmByte f
      return expandPseudo (.hdr a f)
    | _ => .error .wrongOperands
  else if spelling = "CRC_BLOCK".toList then do
    let bs ← asmBytes operands
    return expandPseudo (.crcBlock bs)
  else if spelling = "READ".toList then
    match operands with
    | [n] => .ok (expandPseudo (.read n))
    | _ => .error .wrongOperands
  else if spelling = "REWIND".toList then
    if operands = [] then .ok (expandPseudo .rewind) else .error .wrongOperands
  else if spelling = "RD_CRC".toList then
    if operands = [] then .ok (expandPseudo .rdCrc) else .error .wrongOperands
  else if spelling = "RD_STATUS".toList then
    if operands = [] then .ok (expandPseudo .rdStatus) else .error .wrongOperands
  else .error .unknownMnemonic

/-- A mnemonic or pseudo-instruction with its operands. -/
def assembleParts (spelling : List Char) (operands : List Nat) : Except AsmError (List Instr) :=
  match asmRows.find? (fun row => row.spelling == spelling) with
  | some row => assembleCommand row operands
  | none => assemblePseudo spelling operands

/-- A space or a tab separates the words of a line (log entry 13). -/
def isBlank (c : Char) : Bool := c == ' ' || c == '\t'

/-- Without blanks at either end. -/
def trimBlanks (cs : List Char) : List Char :=
  ((cs.dropWhile isBlank).reverse.dropWhile isBlank).reverse

/-- The value of a digit in a base up to 16; hexadecimal letters of either case (log entry 13). -/
def digitValue (base : Nat) (c : Char) : Option Nat :=
  let n := c.toNat
  let v :=
    if 48 ≤ n ∧ n ≤ 57 then n - 48
    else if 65 ≤ n ∧ n ≤ 70 then n - 55
    else if 97 ≤ n ∧ n ≤ 102 then n - 87
    else 16
  if v < base then some v else none

/-- The number a run of digits writes, after the digits whose value is `acc`. -/
def digitsValue (base : Nat) : List Char → Nat → Option Nat
  | [], acc => some acc
  | c :: cs, acc =>
    match digitValue base c with
    | some v => digitsValue base cs (acc * base + v)
    | none => none

/-- A number in decimal or as `0x` hexadecimal (R90). -/
def parseNumber (cs : List Char) : Except AsmError Nat :=
  let value := match cs with
    | '0' :: 'x' :: c :: rest => digitsValue 16 (c :: rest) 0
    | c :: rest => digitsValue 10 (c :: rest) 0
    | [] => none
  match value with
  | some n => .ok n
  | none => .error .notANumber

/-- Operands separated by commas (R91). -/
def parseOperands (cs : List Char) : Except AsmError (List Nat) :=
  if cs = [] then .ok [] else (cs.splitOn ',').mapM (fun part => parseNumber (trimBlanks part))

/-- One line of a program: one command or pseudo-instruction, `;` starting a comment (R90). A line with neither gives no
command (log entry 13). -/
def assembleLine (line : List Char) : Except AsmError (List Instr) := do
  let code := trimBlanks (line.takeWhile (fun c => c != ';'))
  if code = [] then return []
  let operands ← parseOperands (trimBlanks (code.dropWhile (fun c => !isBlank c)))
  assembleParts (code.takeWhile (fun c => !isBlank c)) operands

/-- A hexadecimal digit of a program listing. -/
def hexDigit (n : Nat) : Char := if n < 10 then Char.ofNat (48 + n) else Char.ofNat (55 + n)

/-- A command word as a program listing writes it: 4 hexadecimal digits (R90). -/
def listWord (w : Word) : List Char :=
  [hexDigit (w.toNat / 4096), hexDigit (w.toNat / 256 % 16), hexDigit (w.toNat / 16 % 16), hexDigit (w.toNat % 16)]

end Sys2Proof.Machine
end

