-- ==== Sys2Proof/Safety.lean ====
section
/-! DEFINITION. The invariant of reachable states, when a command may run, and runs of a host's program: the terms claims use. -/

namespace Sys2Proof.Machine

/-- PTR is 0 to FBUF_SIZE (spec/41_buffer.md R126). -/
abbrev State.PtrInRange (s : State) : Prop := s.ptr.toNat ≤ s.fbufSize

/-- LEN is 0 to FBUF_SIZE (spec/10_state.md R27). -/
abbrev State.LenInRange (s : State) : Prop := s.len.toNat ≤ s.fbufSize

/-- RESULT is one of the codes 0 to 4 (spec/10_state.md R31, spec/93_implementation_defined.md). -/
abbrev State.ResultLegal (s : State) : Prop := s.result.toNat ≤ 4

/-- Only addresses of FBUF are written (spec/20_memory.md R63). -/
abbrev State.FbufInRange (s : State) : Prop := ∀ cell ∈ s.fbuf, cell.1 < s.fbufSize

/-- The host's index stands inside its list or at its end (spec/10_state.md R21). -/
abbrev State.HostInRange (s : State) : Prop := s.host.index ≤ s.host.program.length

/-- The invariant: a legal build, registers in their legal ranges, FBUF in canonical form and in range, the host's index in its
list. -/
abbrev State.Inv (s : State) : Prop :=
  Config.legalFbufSize s.fbufSize ∧ s.PtrInRange ∧ s.LenInRange ∧ s.ResultLegal ∧ s.fbuf.wf ∧ s.FbufInRange ∧ s.HostInRange

/-- The `n` FBUF bytes from address `a` on have been written since reset (spec/10_state.md R41). -/
abbrev State.WrittenRange (s : State) (a n : Nat) : Prop := ∀ k < n, s.isWritten (a + k) = true

/-- MemRead of the bytes from address `a` on gives this list. -/
abbrev State.Holds (s : State) (a : Nat) (bytes : List Byte) : Prop :=
  ∀ k (h : k < bytes.length), memRead s (a + k) = .ok bytes[k]

/-- Every FBUF byte the command reads has been written (spec/70_reset_and_hazards.md R243, item 4). -/
def readsWritten (c : Command) (s : State) : Prop :=
  match c with
  | .instr (.bufRd _) => ptrAtEnd s = true ∨ s.isWritten s.ptr.toNat = true
  | .instr (.encodeFrame _) => encodeInBounds s = true → s.WrittenRange 2 (s.ptr.toNat - 2)
  | .instr (.decodeFrame _) => 4 ≤ s.ptr.toNat → s.WrittenRange 0 s.ptr.toNat
  | .instr (.nop _) => True
  | .instr (.crcInit _) => True
  | .instr (.crcByte _) => True
  | .instr (.setAddr _) => True
  | .instr (.setFc _) => True
  | .instr (.setPtr _) => True
  | .instr (.bufWr _) => True
  | .instr (.rdReg _) => True
  | .instr (.clrStatus _) => True
  | .reserved _ _ => True

/-- The register and memory values spec/70_reset_and_hazards.md R240 lists for reset. -/
def State.HasResetValues (s : State) : Prop :=
  s.crc = 0xFFFF#16 ∧ s.addr = 0x00#8 ∧ s.fc = 0x00#8 ∧ s.ptr = 0#9 ∧ s.len = 0#9 ∧
  s.rxAddr = 0x00#8 ∧ s.rxFc = 0x00#8 ∧ s.exc = 0x00#8 ∧ s.rxCrc = 0x0000#16 ∧ s.result = 0#3 ∧
  s.addrMatch = false ∧ s.fcMatch = false ∧ s.ovf = false ∧ s.ill = false ∧
  regByte s 0x00#8 = some 0x00#8 ∧ regByte s 0x0E#8 = some 0x01#8 ∧
  (∀ a, s.isWritten a = false) ∧ s.responses = []

/-- The state with the host about to issue these commands, in order (spec/10_state.md R21). -/
def State.issuing (s : State) (program : List Instr) : State :=
  { s with host := ⟨program.map (fun i => .command (encode i)), 0⟩ }

/-- The outcome of a whole program of the host's: one step a command (spec/10_state.md R44, R45). -/
def runProgram (program : List Instr) (s : State) : Result :=
  Host.Core.run Sys2Proof.core program.length (s.issuing program)

/-- The end of a run: the host has no further input (spec/10_state.md R44). -/
def State.atEnd (s : State) : Bool := decide (s.host.program.length ≤ s.host.index)

/-- The predicate of spec/42_frame.md R152 on which the host's Transaction Engine takes a response: RESULT is OK and both
match bits are set. -/
def State.responseMatches (s : State) : Bool := s.result == resultOk && s.addrMatch && s.fcMatch

/-- The state with every stored STATUS field cleared: what is left to compare when STATUS may differ. -/
def State.eraseStatus (s : State) : State :=
  { s with result := 0#3, addrMatch := false, fcMatch := false, ovf := false, ill := false }

/-- The state with LEN cleared. -/
def State.eraseLen (s : State) : State := { s with len := 0#9 }

/-- An outcome with its next state seen through a function. -/
def viewResult (view : State → State) : Result → Result
  | .next s => .next (view s)
  | .fault f => .fault f
  | .refused r => .refused r

/-- The bytes of the frame with this address, function code and payload, as spec/30_encoding.md R88 lays it out. -/
def frameBytes (a f : Byte) (payload : List Byte) : List Byte :=
  let c := bodyCrc (a :: f :: payload)
  a :: f :: payload ++ [lowByte c, highByte c]

end Sys2Proof.Machine
end

