-- ==== Sys2Proof/Certificates/Slice0/Obligations.lean ====
section
/-! DEFINITION. The statements for the provers, from the numbered rules of spec/. -/

open Sys2Proof Sys2Proof.Machine

/-! ### Reset and the step -/

/-- R240, R241: asserting rst_n, between commands or during one, answers a state with every value R240 lists; the state right
after reset has them too. -/
def Obligations.ResetGivesEveryResetValue : Prop :=
  State.reset.HasResetValues ∧
  ∀ (s : State) (inProgress : Option Word), nextInput s = some (.reset inProgress) →
    ∃ t, step s = .next t ∧ t.HasResetValues

/-- The model's choice (log entries 2 and 4): a reset leaves the build's FBUF_SIZE and the host's list, and the host's index
goes on to its next input. The state right after reset has FBUF_SIZE = 256 (R8) and a host that has issued nothing. -/
def Obligations.ResetKeepsTheBuildAndTheHost : Prop :=
  State.reset.fbufSize = 256 ∧ State.reset.host = ⟨[], 0⟩ ∧
  ∀ (s t : State) (inProgress : Option Word), nextInput s = some (.reset inProgress) → step s = .next t →
    t.fbufSize = s.fbufSize ∧ t.host = ⟨s.host.program, s.host.index + 1⟩

/-- The invariant holds right after reset. -/
def Obligations.ResetStateMeetsTheInvariant : Prop := State.reset.Inv

/-- A step whose next host input is a word that decodes to a command of the table is `exec` of that command, and the host's
index goes up by one where there is a next state (R21, R45, R66; that a fault leaves no next state is R64). -/
def Obligations.StepRunsTheDecodedCommand : Prop :=
  ∀ (s : State) (w : Word) (i : Instr), nextInput s = some (.command w) → decodeWord w = .instr i →
    step s = match exec i s with
      | .next t => .next { t with host := ⟨t.host.program, t.host.index + 1⟩ }
      | .fault f => .fault f
      | .refused r => .refused r

/-- R184 (with R84's list of the reserved opcodes): a reserved command sets ILL and changes nothing else; no response byte is
emitted. -/
def Obligations.ReservedWordSetsIllAndNothingElse : Prop :=
  ∀ (s : State) (w : Word), nextInput s = some (.command w) → reservedOpcode (w.extractLsb' 8 8) = true →
    step s = .next { s with ill := true, host := ⟨s.host.program, s.host.index + 1⟩ }

/-- R242: the block waits for a command. That a step with none is a step that changes nothing is the model's choice
(log entry 3). -/
def Obligations.BlockWaitsWithoutACommand : Prop :=
  ∀ s : State, nextInput s = none → step s = .next s

/-- The word `withFetchWord` places is the one the next step takes, in every state whose host index is in its list (log entry 5). -/
def Obligations.FetchWordIsTakenNext : Prop :=
  ∀ (s : State) (w : Word), s.HostInRange →
    nextInput (s.withFetchWord 16 w.toNat) = some (.command w) ∧
    ∃ host, s.withFetchWord 16 w.toNat = { s with host := host } ∧ host.index = s.host.index

/-! ### Command words -/

/-- Words the spec writes out for its examples, one or more of every family, and the commands they stand for. -/
def Obligations.SpecExampleWordsDecode : Prop :=
  decodeWord 0x0000#16 = .instr (.nop 0x00#8) ∧
  decodeWord 0x00FF#16 = .instr (.nop 0xFF#8) ∧
  decodeWord 0x0100#16 = .instr (.crcInit 0x00#8) ∧
  decodeWord 0x0201#16 = .instr (.crcByte 0x01#8) ∧
  decodeWord 0x1001#16 = .instr (.setAddr 0x01#8) ∧
  decodeWord 0x1103#16 = .instr (.setFc 0x03#8) ∧
  decodeWord 0x2002#16 = .instr (.setPtr 0x02#8) ∧
  decodeWord 0x2101#16 = .instr (.bufWr 0x01#8) ∧
  decodeWord 0x2200#16 = .instr (.bufRd 0x00#8) ∧
  decodeWord 0x3000#16 = .instr (.encodeFrame 0x00#8) ∧
  decodeWord 0x3100#16 = .instr (.decodeFrame 0x00#8) ∧
  decodeWord 0x400F#16 = .instr (.rdReg 0x0F#8) ∧
  decodeWord 0x4100#16 = .instr (.clrStatus 0x00#8) ∧
  decodeWord 0xFF00#16 = .reserved 0xFF#8 0x00#8

/-- R83: every word selects exactly one row: the rows' opcodes differ, a word is reserved exactly when its OP is in R84's list,
and any other word selects a command whose opcode is that OP. R82: 244 opcodes are reserved. -/
def Obligations.ReservedExactlyOutsideTheMap : Prop :=
  opcodeMap.Pairwise (fun x y => x.op ≠ y.op) ∧
  (∀ w : Word,
    (reservedOpcode (w.extractLsb' 8 8) = true →
      decodeWord w = .reserved (w.extractLsb' 8 8) (w.extractLsb' 0 8)) ∧
    (reservedOpcode (w.extractLsb' 8 8) = false →
      ∃ i : Instr, decodeWord w = .instr i ∧ i.opcode = w.extractLsb' 8 8 ∧ i.imm = w.extractLsb' 0 8)) ∧
  ((List.range 256).filter (fun n => reservedOpcode (BitVec.ofNat 8 n))).length = 244

/-- Command words and commands agree both ways: every command, the reserved ones with their 244 opcodes among them, is the
decoding of its own word at every IMM, and every 16-bit word is the word of what it decodes to. -/
def Obligations.CommandWordsAndCommandsAgree : Prop :=
  (∀ c : Command, c.wellFormed = true → decodeWord c.encode = c) ∧
  (∀ w : Word, (decodeWord w).encode = w ∧ (decodeWord w).wellFormed = true)

/-- R183: the commands with an ignored IMM are exactly the six listed, and for each, in every state, every IMM has the effect of
IMM = 0x00. -/
def Obligations.IgnoredImmMakesNoDifference : Prop :=
  (∀ i : Instr, i.ignoresImm = true ↔ i.opcode ∈ [0x00#8, 0x01#8, 0x22#8, 0x30#8, 0x31#8, 0x41#8]) ∧
  ∀ (i : Instr) (b : Byte) (s : State), i.ignoresImm = true → exec (i.withImm b) s = exec (i.withImm 0x00#8) s

/-- R91: a pseudo-instruction is exactly its expansion, as words of R80. -/
def Obligations.PseudoInstructionsExpand : Prop :=
  (∀ (off : Byte) (bytes : List Byte), (expandPseudo (.load off bytes)).map encode = (0x20#8 ++ off) :: bytes.map (fun b => 0x21#8 ++ b)) ∧
  (∀ a f : Byte, (expandPseudo (.hdr a f)).map encode = [0x10#8 ++ a, 0x11#8 ++ f]) ∧
  (∀ bytes : List Byte, (expandPseudo (.crcBlock bytes)).map encode = 0x0100#16 :: bytes.map (fun b => 0x02#8 ++ b)) ∧
  (∀ n : Nat, (expandPseudo (.read n)).map encode = List.replicate n 0x2200#16) ∧
  (expandPseudo .rewind).map encode = [0x2000#16] ∧
  (expandPseudo .rdCrc).map encode = [0x4001#16, 0x4002#16] ∧
  (expandPseudo .rdStatus).map encode = [0x4000#16]

/-! ### The CRC -/

/-- R100: the byte enters the low 8 bits, and 8 times the bit about to be shifted out selects the XOR with 0xA001. -/
def Obligations.CrcByteIsTheShiftLoop : Prop :=
  ∀ (c : Word) (b : Byte),
    crc16Byte c b =
      (fun x : Word => if x &&& 1#16 = 1#16 then (x >>> 1) ^^^ 0xA001#16 else x >>> 1)^[8] (c ^^^ b.setWidth 16)

/-- R101: crc16 applies crc16_byte to each byte in order, first byte first; a body's CRC starts at 0xFFFF, the empty body's is
0xFFFF, and no final XOR is applied. -/
def Obligations.CrcOfASequenceIsTheFold : Prop :=
  (∀ (c : Word) (bytes : List Byte), crc16 c bytes = bytes.foldl crc16Byte c) ∧
  (∀ body : List Byte, bodyCrc body = body.foldl crc16Byte 0xFFFF#16) ∧
  bodyCrc [] = 0xFFFF#16

/-- R103: the trace of crc16_byte(0xFFFF, 0x01), shift by shift, with the bit each shift tests. -/
def Obligations.CrcTraceOfOneByte : Prop :=
  0xFFFF#16 ^^^ (0x01#8).setWidth 16 = 0xFFFE#16 ∧
  (List.range 8).map (fun n => (crcShifts n 0xFFFE#16).getLsbD 0) = [false, true, false, true, false, true, false, true] ∧
  (List.range 8).map (fun n => crcShifts (n + 1) 0xFFFE#16) =
    [0x7FFF#16, 0x9FFE#16, 0x4FFF#16, 0x87FE#16, 0x43FF#16, 0x81FE#16, 0x40FF#16, 0x807E#16] ∧
  crc16Byte 0xFFFF#16 0x01#8 = 0x807E#16

/-- R102: for each fixed byte, and each fixed byte sequence, the CRC step is a bijection on CRC values; it is affine, and in fact
linear, over XOR; and the table form gives the same values. -/
def Obligations.CrcByteIsLinearAndBijective : Prop :=
  (∀ b : Byte, Function.Bijective (fun c : Word => crc16Byte c b)) ∧
  (∀ bytes : List Byte, Function.Bijective (fun c : Word => crc16 c bytes)) ∧
  (∀ (c1 c2 : Word) (b1 b2 : Byte),
    crc16Byte (c1 ^^^ c2) (b1 ^^^ b2) = crc16Byte c1 b1 ^^^ crc16Byte c2 b2 ^^^ crc16Byte 0x0000#16 0x00#8) ∧
  crc16Byte 0x0000#16 0x00#8 = 0x0000#16 ∧
  (∀ (c : Word) (b : Byte),
    crc16Byte c b = (c >>> 8) ^^^ crc16Byte 0x0000#16 ((c ^^^ b.setWidth 16).setWidth 8))

/-- R104: the residue of a body followed by its CRC, low byte first, is zero; and a zero residue means the two last bytes are the
body's CRC, the second of them high. -/
def Obligations.ResidueIsZeroExactlyForTheTrailingCrc : Prop :=
  (∀ body : List Byte,
    crc16 0xFFFF#16 (body ++ [lowByte (crc16 0xFFFF#16 body), highByte (crc16 0xFFFF#16 body)]) = 0x0000#16) ∧
  (∀ (body : List Byte) (x y : Byte),
    crc16 0xFFFF#16 (body ++ [x, y]) = 0x0000#16 ↔ y ++ x = crc16 0xFFFF#16 body)

/-- R110: CRC becomes 0xFFFF and nothing else changes; CRC_ZERO then reads 0; with CRC 0xFFFF already there, nothing changes. -/
def Obligations.CrcInitSetsTheInitialValue : Prop :=
  ∀ (imm : Byte) (s : State),
    exec (.crcInit imm) s = .next { s with crc := 0xFFFF#16 } ∧
    crcZero { s with crc := 0xFFFF#16 } = false ∧
    (s.crc = 0xFFFF#16 → exec (.crcInit imm) s = .next s)

/-- R111: CRC becomes crc16_byte(CRC, IMM) and nothing else changes; CRC_ZERO follows the new CRC; a zero byte leaves exactly
0x0000 and 0xC001 unchanged; and the four table values and the example R111 gives. -/
def Obligations.CrcByteFoldsOneByte : Prop :=
  (∀ (imm : Byte) (s : State),
    exec (.crcByte imm) s = .next { s with crc := crc16Byte s.crc imm } ∧
    (crcZero { s with crc := crc16Byte s.crc imm } = true ↔ crc16Byte s.crc imm = 0x0000#16)) ∧
  (∀ c : Word, crc16Byte c 0x00#8 = c ↔ c = 0x0000#16 ∨ c = 0xC001#16) ∧
  crc16Byte 0x0000#16 0x00#8 = 0x0000#16 ∧ crc16Byte 0x0000#16 0x01#8 = 0xC0C1#16 ∧
  crc16Byte 0x0000#16 0x80#8 = 0xA001#16 ∧ crc16Byte 0x0000#16 0xFF#8 = 0x4040#16 ∧
  crc16Byte 0xFFFF#16 0x01#8 = 0x807E#16

/-- R112: the streaming generator answers the CRC of the body, low byte first, and the streaming validator's STATUS byte has
bit 5 set exactly when the last two bytes are the body's CRC; neither touches the frame results in STATUS (RESULT and
the match bits). -/
def Obligations.StreamingGeneratorAndValidator : Prop :=
  (∀ (body : List Byte) (s : State),
    ∃ t, runProgram (expandPseudo (.crcBlock body) ++ expandPseudo .rdCrc) s = .next t ∧
      t.responses = s.responses ++ [lowByte (crc16 0xFFFF#16 body), highByte (crc16 0xFFFF#16 body)] ∧
      t.result = s.result ∧ t.addrMatch = s.addrMatch ∧ t.fcMatch = s.fcMatch) ∧
  (∀ (body : List Byte) (x y : Byte) (s : State),
    ∃ t status, runProgram (expandPseudo (.crcBlock (body ++ [x, y])) ++ expandPseudo .rdStatus) s = .next t ∧
      t.responses = s.responses ++ [status] ∧
      (status.getLsbD 5 = true ↔ y ++ x = crc16 0xFFFF#16 body) ∧
      t.result = s.result ∧ t.addrMatch = s.addrMatch ∧ t.fcMatch = s.fcMatch)

/-! ### Buffer and header loading -/

/-- R124, R125: the header registers take any byte, and nothing else changes. -/
def Obligations.SetAddrAndSetFcLoadTheHeader : Prop :=
  ∀ (imm : Byte) (s : State),
    exec (.setAddr imm) s = .next { s with addr := imm } ∧ exec (.setFc imm) s = .next { s with fc := imm }

/-- R121: SET_PTR sets PTR to an index up to FBUF_SIZE; a greater one sets OVF and leaves PTR; with FBUF_SIZE at 255 or more no
IMM is greater; nothing else changes. -/
def Obligations.SetPtrLoadsThePointerOrSetsOvf : Prop :=
  ∀ (imm : Byte) (s : State),
    (s.fbufSize < imm.toNat → exec (.setPtr imm) s = .next { s with ovf := true }) ∧
    (imm.toNat ≤ s.fbufSize →
      ∃ p : Pointer, p.toNat = imm.toNat ∧ exec (.setPtr imm) s = .next { s with ptr := p }) ∧
    (255 ≤ s.fbufSize → imm.toNat ≤ s.fbufSize)

/-- R122: with PTR at FBUF_SIZE a BUF_WR is dropped and sets OVF; below, it stores IMM at PTR (every other byte reads as before)
and adds 1 to PTR. Nothing else changes. -/
def Obligations.BufWrStoresAtThePointer : Prop :=
  ∀ (imm : Byte) (s : State), Config.legalFbufSize s.fbufSize →
    (s.ptr.toNat = s.fbufSize → exec (.bufWr imm) s = .next { s with ovf := true }) ∧
    (s.ptr.toNat < s.fbufSize →
      ∃ t, exec (.bufWr imm) s = .next t ∧
        t.ptr.toNat = s.ptr.toNat + 1 ∧
        (∀ a, memRead t a = if a = effectiveAddress s then .ok imm else memRead s a) ∧
        t = { s with ptr := t.ptr, fbuf := t.fbuf })

/-- R123: with PTR at FBUF_SIZE a BUF_RD answers 0x00 and sets OVF; below, it answers the byte at PTR and adds 1 to PTR, and on a
byte never written the model faults (R64). Nothing else changes. -/
def Obligations.BufRdAnswersTheByteAtThePointer : Prop :=
  ∀ (imm : Byte) (s : State), Config.legalFbufSize s.fbufSize →
    (s.ptr.toNat = s.fbufSize →
      exec (.bufRd imm) s = .next { s with ovf := true, responses := s.responses ++ [0x00#8] }) ∧
    (s.ptr.toNat < s.fbufSize → ∀ v, memRead s (effectiveAddress s) = .ok v →
      ∃ p : Pointer, p.toNat = s.ptr.toNat + 1 ∧
        exec (.bufRd imm) s = .next { s with ptr := p, responses := s.responses ++ [v] }) ∧
    (s.ptr.toNat < s.fbufSize → s.isWritten s.ptr.toNat = false →
      exec (.bufRd imm) s = .fault (.fbufUnwritten s.ptr.toNat))

/-- MemWrite then MemRead (R63, R67): the written byte at its address, which is then written; every other address as before. -/
def Obligations.FbufReadsTheLastWrite : Prop :=
  ∀ (s : State) (a : Nat) (v : Byte), a < s.fbufSize →
    ∃ t, memWrite s a v = .ok t ∧
      (∀ b, memRead t b = if b = a then .ok v else memRead s b) ∧
      (∀ b, t.isWritten b = (s.isWritten b || b == a)) ∧
      t = { s with fbuf := t.fbuf }

/-- LOAD (R91, R127) puts its bytes in FBUF from its offset on, one after another, leaves PTR past the last of them, and changes
no other byte and no other register. -/
def Obligations.LoadPlacesItsBytes : Prop :=
  ∀ (off : Byte) (bytes : List Byte) (s : State), Config.legalFbufSize s.fbufSize →
    off.toNat + bytes.length ≤ s.fbufSize →
    ∃ t, runProgram (expandPseudo (.load off bytes)) s = .next t ∧
      t.ptr.toNat = off.toNat + bytes.length ∧ t.Holds off.toNat bytes ∧
      (∀ a, a < off.toNat ∨ off.toNat + bytes.length ≤ a → memRead t a = memRead s a) ∧
      t = { s with ptr := t.ptr, fbuf := t.fbuf, host := t.host }

/-! ### Frames -/

/-- R141: outside 2 to FBUF_SIZE - 2, ENCODE sets RESULT to LENGTH (4), clears the match bits and changes nothing else. -/
def Obligations.EncodeOutsideItsBoundRecordsLength : Prop :=
  ∀ (imm : Byte) (s : State), s.ptr.toNat < 2 ∨ s.fbufSize - 2 < s.ptr.toNat →
    exec (.encodeFrame imm) s = .next { s with result := 4#3, addrMatch := false, fcMatch := false }

/-- R142, R145: within its bound, on a payload that can be read, ENCODE leaves the whole frame in wire order at FBUF[0] (address,
function code, payload, CRC low, CRC high), every byte past it as it was, CRC the frame's CRC, LEN = P + 2, PTR = 0, RESULT OK
and the match bits clear, and changes nothing else. -/
def Obligations.EncodeBuildsTheFrame : Prop :=
  ∀ (imm : Byte) (s : State) (payload : List Byte), Config.legalFbufSize s.fbufSize →
    2 ≤ s.ptr.toNat → s.ptr.toNat ≤ s.fbufSize - 2 → payload.length = s.ptr.toNat - 2 → s.Holds 2 payload →
    ∃ t, exec (.encodeFrame imm) s = .next t ∧
      t.crc = crc16 0xFFFF#16 (s.addr :: s.fc :: payload) ∧
      t.Holds 0 (s.addr :: s.fc :: payload ++ [lowByte t.crc, highByte t.crc]) ∧
      (∀ a, s.ptr.toNat + 2 ≤ a → memRead t a = memRead s a) ∧
      t.len.toNat = s.ptr.toNat + 2 ∧ t.ptr = 0#9 ∧ t.result = 0#3 ∧ t.addrMatch = false ∧ t.fcMatch = false ∧
      t = { s with
        fbuf := t.fbuf, crc := t.crc, len := t.len, ptr := t.ptr, result := t.result
        addrMatch := t.addrMatch, fcMatch := t.fcMatch }

/-- R144: if any payload byte was never written since reset, the model faults the ENCODE, on such a byte. -/
def Obligations.EncodeFaultsOnAnUnwrittenPayloadByte : Prop :=
  ∀ (imm : Byte) (s : State), 2 ≤ s.ptr.toNat → s.ptr.toNat ≤ s.fbufSize - 2 →
    (∃ a, 2 ≤ a ∧ a < s.ptr.toNat ∧ s.isWritten a = false) →
    ∃ a, 2 ≤ a ∧ a < s.ptr.toNat ∧ s.isWritten a = false ∧ exec (.encodeFrame imm) s = .fault (.fbufUnwritten a)

/-- R153, the five rows of DECODE's outcomes, in the order of R204: under 4 bytes, whatever is written, SHORT_FRAME; on L >= 4
bytes that can be read CRC_MISMATCH, and with the CRC valid the late SHORT_FRAME, EXCEPTION and OK. Each row says everything it
writes; nothing else changes. -/
def Obligations.DecodeOutcomes : Prop :=
  (∀ (imm : Byte) (s : State), s.ptr.toNat < 4 →
    exec (.decodeFrame imm) s = .next { s with len := s.ptr, result := 1#3, addrMatch := false, fcMatch := false }) ∧
  ∀ (imm : Byte) (s : State) (frame : List Byte), 4 ≤ s.ptr.toNat → frame.length = s.ptr.toNat → s.Holds 0 frame →
    let c := crc16 0xFFFF#16 (frame.take (s.ptr.toNat - 2))
    let rx : Word := frame.getD (s.ptr.toNat - 1) 0#8 ++ frame.getD (s.ptr.toNat - 2) 0#8
    let a := frame.getD 0 0#8
    let f := frame.getD 1 0#8
    (c ≠ rx →
      exec (.decodeFrame imm) s = .next { s with
        len := s.ptr, crc := c, rxCrc := rx, result := 2#3, addrMatch := false, fcMatch := false }) ∧
    (c = rx → f.getLsbD 7 = true → s.ptr.toNat = 4 →
      exec (.decodeFrame imm) s = .next { s with
        len := s.ptr, crc := c, rxCrc := rx, rxAddr := a, rxFc := f, addrMatch := decide (a = s.addr)
        fcMatch := decide (f = s.fc), result := 1#3 }) ∧
    (c = rx → f.getLsbD 7 = true → 5 ≤ s.ptr.toNat →
      exec (.decodeFrame imm) s = .next { s with
        len := s.ptr, crc := c, rxCrc := rx, rxAddr := a, rxFc := f, addrMatch := decide (a = s.addr)
        fcMatch := decide (f = s.fc), result := 3#3, exc := frame.getD 2 0#8, ptr := 2#9 }) ∧
    (c = rx → f.getLsbD 7 = false →
      exec (.decodeFrame imm) s = .next { s with
        len := s.ptr, crc := c, rxCrc := rx, rxAddr := a, rxFc := f, addrMatch := decide (a = s.addr)
        fcMatch := decide (f = s.fc), result := 0#3, ptr := 2#9 })

/-- R149, the FBUF bytes DECODE reads. With L < 4, none: DECODE completes, and as it would over any other FBUF. With L >= 4, only
FBUF[0] to FBUF[L-1]: over any FBUF that holds the same there, whatever stands or is unwritten at or past PTR, it completes or
faults alike and leaves the same registers; where those bytes were written and PTR is at most FBUF_SIZE (R126) it completes, so
no byte past them is asked for; and all of them: if any was never written since reset, the model faults the DECODE, on such a
byte. DECODE writes no FBUF byte. -/
def Obligations.DecodeReadsExactlyTheFrame : Prop :=
  ∀ (imm : Byte) (s : State),
    (s.ptr.toNat < 4 →
      ∃ t : State, ∀ fbuf : Memory, exec (.decodeFrame imm) { s with fbuf := fbuf } = .next { t with fbuf := fbuf }) ∧
    (4 ≤ s.ptr.toNat → ∀ fbuf : Memory, (∀ a, a < s.ptr.toNat → fbuf.byteAt a = s.fbuf.byteAt a) →
      exec (.decodeFrame imm) { s with fbuf := fbuf } =
        viewResult (fun t : State => { t with fbuf := fbuf }) (exec (.decodeFrame imm) s)) ∧
    (4 ≤ s.ptr.toNat → s.ptr.toNat ≤ s.fbufSize → s.WrittenRange 0 s.ptr.toNat →
      ∃ t, exec (.decodeFrame imm) s = .next t) ∧
    (4 ≤ s.ptr.toNat → s.ptr.toNat ≤ s.fbufSize → (∃ a, a < s.ptr.toNat ∧ s.isWritten a = false) →
      ∃ a, a < s.ptr.toNat ∧ s.isWritten a = false ∧ exec (.decodeFrame imm) s = .fault (.fbufUnwritten a)) ∧
    (∀ t, exec (.decodeFrame imm) s = .next t → t.fbuf = s.fbuf)

/-- R152: on L >= 4 bytes that can be read, with the CRC valid, DECODE leaves ADDR_MATCH and FC_MATCH as the comparisons with ADDR and
FC in all 8 bits; and the predicate RESULT = OK, ADDR_MATCH = 1, FC_MATCH = 1 holds exactly when the CRC is valid, both compare
equal and the function code marks no exception. RESULT = OK with FC_MATCH = 0 is a valid frame with another, normal function code. -/
def Obligations.ResponseMatchesExactlyAValidMatchingFrame : Prop :=
  ∀ (imm : Byte) (s : State) (frame : List Byte), 4 ≤ s.ptr.toNat → frame.length = s.ptr.toNat → s.Holds 0 frame →
    let valid := frame.getD (s.ptr.toNat - 1) 0#8 ++ frame.getD (s.ptr.toNat - 2) 0#8 =
      crc16 0xFFFF#16 (frame.take (s.ptr.toNat - 2))
    ∃ t, exec (.decodeFrame imm) s = .next t ∧
      (valid → (t.addrMatch = true ↔ frame.getD 0 0#8 = s.addr) ∧ (t.fcMatch = true ↔ frame.getD 1 0#8 = s.fc)) ∧
      (t.responseMatches = true ↔
        valid ∧ frame.getD 0 0#8 = s.addr ∧ frame.getD 1 0#8 = s.fc ∧ s.fc.getLsbD 7 = false) ∧
      (t.result = 0#3 ∧ t.fcMatch = false ↔
        valid ∧ frame.getD 1 0#8 ≠ s.fc ∧ (frame.getD 1 0#8).getLsbD 7 = false)

/-- R33, its derived sentence: an exception response to a request with FC[7] = 0 always gives FC_MATCH = 0. -/
def Obligations.ExceptionNeverMatchesANormalRequest : Prop :=
  ∀ (imm : Byte) (s t : State), s.fc.getLsbD 7 = false → exec (.decodeFrame imm) s = .next t → t.result = 3#3 →
    t.fcMatch = false

/-! ### Control -/

/-- R180: NOP changes nothing, whatever its IMM. -/
def Obligations.NopChangesNothing : Prop := ∀ (imm : Byte) (s : State), exec (.nop imm) s = .next s

/-- R37: the STATUS byte is the OR of its fields at their bit positions; after reset it is 0x00. -/
def Obligations.StatusByteLayout : Prop :=
  statusByte State.reset = 0x00#8 ∧
  ∀ s : State,
    statusByte s =
      ((BitVec.ofBool s.ill).setWidth 8 <<< 7) ||| ((BitVec.ofBool s.ovf).setWidth 8 <<< 6) |||
      ((BitVec.ofBool (decide (s.crc = 0x0000#16))).setWidth 8 <<< 5) ||| ((BitVec.ofBool s.fcMatch).setWidth 8 <<< 4) |||
      ((BitVec.ofBool s.addrMatch).setWidth 8 <<< 3) ||| s.result.setWidth 8

/-- R42, R181: RD_REG answers exactly one byte, the one the register map gives, with no side effect; a reserved index answers 0x00
and sets ILL. -/
def Obligations.RdRegAnswersTheRegisterMap : Prop :=
  ∀ s : State,
    (∀ row ∈ [(0x00#8, statusByte s), (0x01#8, s.crc.extractLsb' 0 8), (0x02#8, s.crc.extractLsb' 8 8),
        (0x03#8, s.addr), (0x04#8, s.fc), (0x05#8, s.ptr.extractLsb' 0 8), (0x06#8, (s.ptr.extractLsb' 8 1).setWidth 8),
        (0x07#8, s.len.extractLsb' 0 8), (0x08#8, (s.len.extractLsb' 8 1).setWidth 8), (0x09#8, s.rxAddr), (0x0A#8, s.rxFc),
        (0x0B#8, s.exc), (0x0C#8, s.rxCrc.extractLsb' 0 8), (0x0D#8, s.rxCrc.extractLsb' 8 8), (0x0E#8, 0x01#8)],
      exec (.rdReg row.1) s = .next { s with responses := s.responses ++ [row.2] }) ∧
    (∀ imm : Byte, 0x0F ≤ imm.toNat →
      exec (.rdReg imm) s = .next { s with ill := true, responses := s.responses ++ [0x00#8] })

/-- R182: CLR_STATUS clears every stored STATUS field and changes nothing else; CRC_ZERO still follows CRC, so the STATUS byte
reads 0x20 when CRC is zero and 0x00 when it is not. -/
def Obligations.ClrStatusClearsTheStoredFields : Prop :=
  ∀ (imm : Byte) (s : State),
    ∃ t, exec (.clrStatus imm) s = .next t ∧
      t = { s with result := 0#3, addrMatch := false, fcMatch := false, ovf := false, ill := false } ∧
      (s.crc = 0x0000#16 → statusByte t = 0x20#8) ∧ (s.crc ≠ 0x0000#16 → statusByte t = 0x00#8)

/-- R43: the two halves of CRC, PTR, LEN and RXCRC, read one after the other, are halves of one value, the register's, and the reads
change nothing but the response list. -/
def Obligations.HalvesReadTogetherAreOneValue : Prop :=
  ∀ s : State,
    ∃ t b0 b1 b2 b3 b4 b5 b6 b7,
      runProgram [.rdReg 0x01#8, .rdReg 0x02#8, .rdReg 0x05#8, .rdReg 0x06#8, .rdReg 0x07#8, .rdReg 0x08#8,
        .rdReg 0x0C#8, .rdReg 0x0D#8] s = .next t ∧
      t = { s with responses := s.responses ++ [b0, b1, b2, b3, b4, b5, b6, b7], host := t.host } ∧
      b1.toNat * 256 + b0.toNat = s.crc.toNat ∧ b3.toNat * 256 + b2.toNat = s.ptr.toNat ∧
      b5.toNat * 256 + b4.toNat = s.len.toNat ∧ b7.toNat * 256 + b6.toNat = s.rxCrc.toNat

/-! ### Rules about every command -/

/-- R22's "Writers" column: a command whose opcode is not among a register's writers leaves the register as it was. -/
def Obligations.OnlyTheListedWritersChangeARegister : Prop :=
  ∀ (c : Command) (s t : State), c.wellFormed = true → execCommand c s = .next t →
    (c.opcode ∉ [0x01#8, 0x02#8, 0x30#8, 0x31#8] → t.crc = s.crc) ∧
    (c.opcode ≠ 0x10#8 → t.addr = s.addr) ∧
    (c.opcode ≠ 0x11#8 → t.fc = s.fc) ∧
    (c.opcode ∉ [0x20#8, 0x21#8, 0x22#8, 0x30#8, 0x31#8] → t.ptr = s.ptr) ∧
    (c.opcode ∉ [0x30#8, 0x31#8] → t.len = s.len) ∧
    (c.opcode ≠ 0x31#8 → t.rxAddr = s.rxAddr ∧ t.rxFc = s.rxFc ∧ t.exc = s.exc ∧ t.rxCrc = s.rxCrc) ∧
    (c.opcode ∉ [0x30#8, 0x31#8, 0x41#8] →
      t.result = s.result ∧ t.addrMatch = s.addrMatch ∧ t.fcMatch = s.fcMatch) ∧
    (c.opcode ∉ [0x20#8, 0x21#8, 0x22#8, 0x41#8] → t.ovf = s.ovf) ∧
    (c.opcode ≠ 0x40#8 → c.opcode ≠ 0x41#8 → reservedOpcode c.opcode = false → t.ill = s.ill) ∧
    (c.opcode ∉ [0x21#8, 0x30#8] → t.fbuf = s.fbuf) ∧
    t.fbufSize = s.fbufSize ∧ t.host = s.host

/-- R65: an FBUF byte changes only by BUF_WR, at PTR, or by ENCODE within its bound, at 0, 1, PTR and PTR + 1. -/
def Obligations.FbufChangesOnlyWhereStoredTo : Prop :=
  ∀ (c : Command) (s t : State) (a : Nat), execCommand c s = .next t → memRead t a ≠ memRead s a →
    (∃ imm, c = .instr (.bufWr imm) ∧ a = effectiveAddress s) ∨
    (∃ imm, c = .instr (.encodeFrame imm) ∧ encodeInBounds s = true ∧
      (a = 0 ∨ a = 1 ∨ a = s.ptr.toNat ∨ a = s.ptr.toNat + 1))

/-- R44: every RD_REG and every BUF_RD puts exactly one byte on the response port, after those before it, and no other command
puts any. -/
def Obligations.OneResponseByteForEachRead : Prop :=
  ∀ (c : Command) (s t : State), c.wellFormed = true → execCommand c s = .next t →
    (c.opcode ∈ [0x22#8, 0x40#8] → ∃ v, t.responses = s.responses ++ [v]) ∧
    (c.opcode ∉ [0x22#8, 0x40#8] → t.responses = s.responses)

/-- R35, R36: OVF and ILL stay set under every command but CLR_STATUS; OVF is set only by a BUF_WR or BUF_RD at PTR = FBUF_SIZE or a
SET_PTR over FBUF_SIZE, and ILL only by a reserved opcode or an RD_REG of a reserved index. They are bits 6 and 7 of the STATUS
byte, and clear after reset. -/
def Obligations.StickyFlagsAreSetAndClearedAsStated : Prop :=
  State.reset.ovf = false ∧ State.reset.ill = false ∧
  (∀ s : State, (statusByte s).getLsbD 6 = s.ovf ∧ (statusByte s).getLsbD 7 = s.ill) ∧
  ∀ (c : Command) (s t : State), c.wellFormed = true → execCommand c s = .next t →
    (c.opcode ≠ 0x41#8 → (s.ovf = true → t.ovf = true) ∧ (s.ill = true → t.ill = true)) ∧
    (c.opcode = 0x41#8 → t.ovf = false ∧ t.ill = false) ∧
    (c.opcode ≠ 0x41#8 → s.ovf = false →
      (t.ovf = true ↔
        (c.opcode ∈ [0x21#8, 0x22#8] ∧ s.ptr.toNat = s.fbufSize) ∨
        ∃ imm, c = .instr (.setPtr imm) ∧ s.fbufSize < imm.toNat)) ∧
    (c.opcode ≠ 0x41#8 → s.ill = false →
      (t.ill = true ↔ reservedOpcode c.opcode = true ∨ ∃ imm, c = .instr (.rdReg imm) ∧ 0x0F ≤ imm.toNat))

/-- R31: RESULT only ever takes the codes 0 to 4: a command that changes it leaves one of them. -/
def Obligations.ResultTakesOnlyTheFiveCodes : Prop :=
  ∀ (c : Command) (s t : State), execCommand c s = .next t → t.result ≠ s.result → t.result.toNat ≤ 4

/-- R47: no command reads a STATUS field to decide what it does: from two states that differ in stored STATUS fields only, every
command but RD_REG 0x00 stops alike or leaves states that differ in stored STATUS fields only. -/
def Obligations.NoCommandIsSteeredByStatus : Prop :=
  ∀ (c : Command) (s u : State), s.eraseStatus = u.eraseStatus → c ≠ .instr (.rdReg 0x00#8) →
    viewResult State.eraseStatus (execCommand c s) = viewResult State.eraseStatus (execCommand c u)

/-- R27: LEN is informative only: from two states that differ in LEN only, every command but the RD_REGs of LEN stops alike or
leaves states that differ in LEN only. -/
def Obligations.NoCommandReadsLen : Prop :=
  ∀ (c : Command) (s u : State), s.eraseLen = u.eraseLen → c ≠ .instr (.rdReg 0x07#8) → c ≠ .instr (.rdReg 0x08#8) →
    viewResult State.eraseLen (execCommand c s) = viewResult State.eraseLen (execCommand c u)

/-- R64, R200, R201, from every state of the invariant: a command whose FBUF reads are all of written bytes completes; any other
faults on an unwritten byte of FBUF, and only BUF_RD, ENCODE and DECODE do; nothing is refused and nothing faults otherwise. -/
def Obligations.CommandsStopOnlyOnUnwrittenBytes : Prop :=
  ∀ (c : Command) (s : State), s.Inv →
    (readsWritten c s → ∃ t, execCommand c s = .next t) ∧
    (¬ readsWritten c s →
      c.opcode ∈ [0x22#8, 0x30#8, 0x31#8] ∧
      ∃ a, a < s.fbufSize ∧ s.isWritten a = false ∧ execCommand c s = .fault (.fbufUnwritten a))

/-- R126: PTR is 0 to FBUF_SIZE after reset, and every step from a state in which it is, on a legal build, leaves it so. -/
def Obligations.PointerStaysInRange : Prop :=
  State.reset.PtrInRange ∧
  ∀ s t : State, Config.legalFbufSize s.fbufSize → s.PtrInRange → step s = .next t → t.PtrInRange

/-- Every step from a state of the invariant leaves a state of the invariant: the build is legal, PTR and LEN are at most
FBUF_SIZE, RESULT is a code that is written, FBUF is in canonical form with no byte outside it, and the host's index is in its list. -/
def Obligations.StepKeepsTheInvariant : Prop := ∀ s t : State, s.Inv → step s = .next t → t.Inv

/-! ### Whole programs of the host -/

/-- R145, R257: after HDR, LOAD 2 and ENCODE, READ LEN answers the whole frame in wire order, and REWIND with READ LEN answers the
same bytes again, for every payload that fits and from every state of a legal build. -/
def Obligations.ReadLenTransmitsTheEncodedFrame : Prop :=
  ∀ (a f : Byte) (payload : List Byte) (s : State), Config.legalFbufSize s.fbufSize → payload.length + 4 ≤ s.fbufSize →
    let load := expandPseudo (.hdr a f) ++ expandPseudo (.load 0x02#8 payload) ++ [.encodeFrame 0x00#8]
    let readLen := expandPseudo (.read (payload.length + 4))
    ∃ t, runProgram (load ++ readLen ++ expandPseudo .rewind ++ readLen) s = .next t ∧
      t.responses = s.responses ++ frameBytes a f payload ++ frameBytes a f payload ∧
      t.len.toNat = payload.length + 4 ∧ t.crc = crc16 0xFFFF#16 (a :: f :: payload)

/-- R158: encoding a frame and decoding it in place gives its header, its CRC twice over and RESULT = OK with both match bits, or
EXCEPTION with the first payload byte when the function code has bit 7 set, from every state of a legal build. -/
def Obligations.EncodeThenDecodeRoundTrip : Prop :=
  ∀ (a f : Byte) (payload : List Byte) (s : State), Config.legalFbufSize s.fbufSize →
    payload.length + 4 ≤ s.fbufSize → payload.length + 4 ≤ 255 →
    let program := expandPseudo (.hdr a f) ++ expandPseudo (.load 0x02#8 payload) ++
      [.encodeFrame 0x00#8, .setPtr (BitVec.ofNat 8 (payload.length + 4)), .decodeFrame 0x00#8]
    (f.getLsbD 7 = false →
      ∃ t, runProgram program s = .next t ∧
        t.result = 0#3 ∧ t.addrMatch = true ∧ t.fcMatch = true ∧ t.rxAddr = a ∧ t.rxFc = f ∧
        t.rxCrc = crc16 0xFFFF#16 (a :: f :: payload) ∧ t.crc = crc16 0xFFFF#16 (a :: f :: payload) ∧ t.ptr = 2#9) ∧
    (f.getLsbD 7 = true → 1 ≤ payload.length →
      ∃ t, runProgram program s = .next t ∧ t.result = 3#3 ∧ t.exc = payload.getD 0 0#8)

/-- R159: take a frame ENCODE built, replace any one of its bytes with any other value, and DECODE it with PTR = L: the result is
CRC_MISMATCH. -/
def Obligations.SingleByteCorruptionIsDetected : Prop :=
  ∀ (imm imm' : Byte) (s built u : State) (at_ : Nat) (old new : Byte), Config.legalFbufSize s.fbufSize →
    exec (.encodeFrame imm) s = .next built → built.result = 0#3 →
    at_ < built.len.toNat → memRead built at_ = .ok old → new ≠ old →
    u.ptr = built.len → (∀ k < built.len.toNat, memRead u k = if k = at_ then .ok new else memRead built k) →
    ∃ t, exec (.decodeFrame imm') u = .next t ∧ t.result = 2#3
end

