-- ==== Sys2Proof/Laws/Crc.lean ====
section
/-! SUPPORT. Small laws of the CRC (spec/40_crc.md R100, R101). -/

namespace Sys2Proof.Machine

@[simp] theorem crc16_nil (c : Word) : crc16 c [] = c := rfl

@[simp] theorem crc16_cons (c : Word) (b : Byte) (bs : List Byte) : crc16 c (b :: bs) = crc16 (crc16Byte c b) bs := rfl

theorem crc16_append (c : Word) (xs ys : List Byte) : crc16 c (xs ++ ys) = crc16 (crc16 c xs) ys := by
  induction xs generalizing c with
  | nil => rfl
  | cons x xs ih => exact ih _

@[simp] theorem crcShifts_zero (c : Word) : crcShifts 0 c = c := rfl

@[simp] theorem crcShifts_succ (n : Nat) (c : Word) : crcShifts (n + 1) c = crcShifts n (crcShift c) := rfl

/-- One shift is linear over XOR. -/
theorem crcShift_xor (c d : Word) : crcShift (c ^^^ d) = crcShift c ^^^ crcShift d := by
  unfold crcShift
  rw [BitVec.getLsbD_xor, BitVec.ushiftRight_xor_distrib]
  cases c.getLsbD 0 <;> cases d.getLsbD 0 <;> simp
  · rw [BitVec.xor_assoc]
  · rw [BitVec.xor_assoc, BitVec.xor_assoc, BitVec.xor_comm (d >>> 1)]
  · rw [BitVec.xor_assoc, ← BitVec.xor_assoc Config.crcPolynomial, BitVec.xor_comm Config.crcPolynomial, BitVec.xor_assoc,
      BitVec.xor_self, BitVec.xor_zero]

theorem crcShifts_xor (n : Nat) (c d : Word) : crcShifts n (c ^^^ d) = crcShifts n c ^^^ crcShifts n d := by
  induction n generalizing c d with
  | zero => rfl
  | succ n ih => simp only [crcShifts_succ, crcShift_xor, ih]

end Sys2Proof.Machine
end

