-- ==== Sys2Proof/Laws/Decode.lean ====
section
/-! SUPPORT. The fields of format C, and what each opcode decodes to. -/

namespace Sys2Proof

/-- A word of format C as a number. -/
theorem encodeFields_toNat (op imm : Byte) : (encodeFields op imm).toNat = op.toNat * 256 + imm.toNat := by
  rw [encodeFields, BitVec.toNat_append, ← Nat.shiftLeft_add_eq_or_of_lt imm.isLt, Nat.shiftLeft_eq]

theorem opField_toNat (w : Word) : (opField w).toNat = w.toNat / 256 := by
  have := w.isLt
  simp only [opField, BitVec.extractLsb'_toNat, Nat.shiftRight_eq_div_pow]
  omega

theorem immField_toNat (w : Word) : (immField w).toNat = w.toNat % 256 := by
  simp [immField, BitVec.extractLsb'_toNat]

@[simp] theorem opField_encodeFields (op imm : Byte) : opField (encodeFields op imm) = op := by
  have := imm.isLt
  apply BitVec.eq_of_toNat_eq
  rw [opField_toNat, encodeFields_toNat]
  omega

@[simp] theorem immField_encodeFields (op imm : Byte) : immField (encodeFields op imm) = imm := by
  have := imm.isLt
  apply BitVec.eq_of_toNat_eq
  rw [immField_toNat, encodeFields_toNat]
  omega

@[simp] theorem encodeFields_opField_immField (w : Word) : encodeFields (opField w) (immField w) = w := by
  apply BitVec.eq_of_toNat_eq
  rw [encodeFields_toNat, opField_toNat, immField_toNat]
  omega

@[simp] theorem decodeWord_encodeFields (op imm : Byte) : decodeWord (encodeFields op imm) = decodeFields op imm := by
  simp [decodeWord]

/-- The opcode of what a word decodes to is its OP, whether the word is reserved or not. -/
theorem decodeFields_cases (op imm : Byte) :
    (∃ row ∈ opcodeMap, row.op = op ∧ decodeFields op imm = .instr (row.build imm)) ∨
    ((∀ row ∈ opcodeMap, row.op ≠ op) ∧ decodeFields op imm = .reserved op imm) := by
  unfold decodeFields
  cases h : opcodeMap.find? (fun row => row.op == op) with
  | some row =>
    exact .inl ⟨row, List.mem_of_find?_eq_some h, by simpa using List.find?_some h, rfl⟩
  | none => exact .inr ⟨by simpa using h, rfl⟩

end Sys2Proof
end

