-- ==== Sys2Proof/Laws/State.lean ====
section
/-! SUPPORT. One lemma per field for each named update of State, all true by unfolding. -/

namespace Sys2Proof.Machine

@[simp] theorem setResult_fbufSize (r : BitVec 3) (s : State) : (setResult r s).fbufSize = s.fbufSize := rfl
@[simp] theorem setResult_crc (r : BitVec 3) (s : State) : (setResult r s).crc = s.crc := rfl
@[simp] theorem setResult_addr (r : BitVec 3) (s : State) : (setResult r s).addr = s.addr := rfl
@[simp] theorem setResult_fc (r : BitVec 3) (s : State) : (setResult r s).fc = s.fc := rfl
@[simp] theorem setResult_ptr (r : BitVec 3) (s : State) : (setResult r s).ptr = s.ptr := rfl
@[simp] theorem setResult_len (r : BitVec 3) (s : State) : (setResult r s).len = s.len := rfl
@[simp] theorem setResult_rxAddr (r : BitVec 3) (s : State) : (setResult r s).rxAddr = s.rxAddr := rfl
@[simp] theorem setResult_rxFc (r : BitVec 3) (s : State) : (setResult r s).rxFc = s.rxFc := rfl
@[simp] theorem setResult_exc (r : BitVec 3) (s : State) : (setResult r s).exc = s.exc := rfl
@[simp] theorem setResult_rxCrc (r : BitVec 3) (s : State) : (setResult r s).rxCrc = s.rxCrc := rfl
@[simp] theorem setResult_result (r : BitVec 3) (s : State) : (setResult r s).result = r := rfl
@[simp] theorem setResult_addrMatch (r : BitVec 3) (s : State) : (setResult r s).addrMatch = s.addrMatch := rfl
@[simp] theorem setResult_fcMatch (r : BitVec 3) (s : State) : (setResult r s).fcMatch = s.fcMatch := rfl
@[simp] theorem setResult_ovf (r : BitVec 3) (s : State) : (setResult r s).ovf = s.ovf := rfl
@[simp] theorem setResult_ill (r : BitVec 3) (s : State) : (setResult r s).ill = s.ill := rfl
@[simp] theorem setResult_fbuf (r : BitVec 3) (s : State) : (setResult r s).fbuf = s.fbuf := rfl
@[simp] theorem setResult_responses (r : BitVec 3) (s : State) : (setResult r s).responses = s.responses := rfl
@[simp] theorem setResult_host (r : BitVec 3) (s : State) : (setResult r s).host = s.host := rfl

@[simp] theorem setMatch_fbufSize (a f : Bool) (s : State) : (setMatch a f s).fbufSize = s.fbufSize := rfl
@[simp] theorem setMatch_crc (a f : Bool) (s : State) : (setMatch a f s).crc = s.crc := rfl
@[simp] theorem setMatch_addr (a f : Bool) (s : State) : (setMatch a f s).addr = s.addr := rfl
@[simp] theorem setMatch_fc (a f : Bool) (s : State) : (setMatch a f s).fc = s.fc := rfl
@[simp] theorem setMatch_ptr (a f : Bool) (s : State) : (setMatch a f s).ptr = s.ptr := rfl
@[simp] theorem setMatch_len (a f : Bool) (s : State) : (setMatch a f s).len = s.len := rfl
@[simp] theorem setMatch_rxAddr (a f : Bool) (s : State) : (setMatch a f s).rxAddr = s.rxAddr := rfl
@[simp] theorem setMatch_rxFc (a f : Bool) (s : State) : (setMatch a f s).rxFc = s.rxFc := rfl
@[simp] theorem setMatch_exc (a f : Bool) (s : State) : (setMatch a f s).exc = s.exc := rfl
@[simp] theorem setMatch_rxCrc (a f : Bool) (s : State) : (setMatch a f s).rxCrc = s.rxCrc := rfl
@[simp] theorem setMatch_result (a f : Bool) (s : State) : (setMatch a f s).result = s.result := rfl
@[simp] theorem setMatch_addrMatch (a f : Bool) (s : State) : (setMatch a f s).addrMatch = a := rfl
@[simp] theorem setMatch_fcMatch (a f : Bool) (s : State) : (setMatch a f s).fcMatch = f := rfl
@[simp] theorem setMatch_ovf (a f : Bool) (s : State) : (setMatch a f s).ovf = s.ovf := rfl
@[simp] theorem setMatch_ill (a f : Bool) (s : State) : (setMatch a f s).ill = s.ill := rfl
@[simp] theorem setMatch_fbuf (a f : Bool) (s : State) : (setMatch a f s).fbuf = s.fbuf := rfl
@[simp] theorem setMatch_responses (a f : Bool) (s : State) : (setMatch a f s).responses = s.responses := rfl
@[simp] theorem setMatch_host (a f : Bool) (s : State) : (setMatch a f s).host = s.host := rfl

@[simp] theorem setOvf_fbufSize (s : State) : (setOvf s).fbufSize = s.fbufSize := rfl
@[simp] theorem setOvf_crc (s : State) : (setOvf s).crc = s.crc := rfl
@[simp] theorem setOvf_addr (s : State) : (setOvf s).addr = s.addr := rfl
@[simp] theorem setOvf_fc (s : State) : (setOvf s).fc = s.fc := rfl
@[simp] theorem setOvf_ptr (s : State) : (setOvf s).ptr = s.ptr := rfl
@[simp] theorem setOvf_len (s : State) : (setOvf s).len = s.len := rfl
@[simp] theorem setOvf_rxAddr (s : State) : (setOvf s).rxAddr = s.rxAddr := rfl
@[simp] theorem setOvf_rxFc (s : State) : (setOvf s).rxFc = s.rxFc := rfl
@[simp] theorem setOvf_exc (s : State) : (setOvf s).exc = s.exc := rfl
@[simp] theorem setOvf_rxCrc (s : State) : (setOvf s).rxCrc = s.rxCrc := rfl
@[simp] theorem setOvf_result (s : State) : (setOvf s).result = s.result := rfl
@[simp] theorem setOvf_addrMatch (s : State) : (setOvf s).addrMatch = s.addrMatch := rfl
@[simp] theorem setOvf_fcMatch (s : State) : (setOvf s).fcMatch = s.fcMatch := rfl
@[simp] theorem setOvf_ovf (s : State) : (setOvf s).ovf = true := rfl
@[simp] theorem setOvf_ill (s : State) : (setOvf s).ill = s.ill := rfl
@[simp] theorem setOvf_fbuf (s : State) : (setOvf s).fbuf = s.fbuf := rfl
@[simp] theorem setOvf_responses (s : State) : (setOvf s).responses = s.responses := rfl
@[simp] theorem setOvf_host (s : State) : (setOvf s).host = s.host := rfl

@[simp] theorem setIll_fbufSize (s : State) : (setIll s).fbufSize = s.fbufSize := rfl
@[simp] theorem setIll_crc (s : State) : (setIll s).crc = s.crc := rfl
@[simp] theorem setIll_addr (s : State) : (setIll s).addr = s.addr := rfl
@[simp] theorem setIll_fc (s : State) : (setIll s).fc = s.fc := rfl
@[simp] theorem setIll_ptr (s : State) : (setIll s).ptr = s.ptr := rfl
@[simp] theorem setIll_len (s : State) : (setIll s).len = s.len := rfl
@[simp] theorem setIll_rxAddr (s : State) : (setIll s).rxAddr = s.rxAddr := rfl
@[simp] theorem setIll_rxFc (s : State) : (setIll s).rxFc = s.rxFc := rfl
@[simp] theorem setIll_exc (s : State) : (setIll s).exc = s.exc := rfl
@[simp] theorem setIll_rxCrc (s : State) : (setIll s).rxCrc = s.rxCrc := rfl
@[simp] theorem setIll_result (s : State) : (setIll s).result = s.result := rfl
@[simp] theorem setIll_addrMatch (s : State) : (setIll s).addrMatch = s.addrMatch := rfl
@[simp] theorem setIll_fcMatch (s : State) : (setIll s).fcMatch = s.fcMatch := rfl
@[simp] theorem setIll_ovf (s : State) : (setIll s).ovf = s.ovf := rfl
@[simp] theorem setIll_ill (s : State) : (setIll s).ill = true := rfl
@[simp] theorem setIll_fbuf (s : State) : (setIll s).fbuf = s.fbuf := rfl
@[simp] theorem setIll_responses (s : State) : (setIll s).responses = s.responses := rfl
@[simp] theorem setIll_host (s : State) : (setIll s).host = s.host := rfl

@[simp] theorem clearStatus_fbufSize (s : State) : (clearStatus s).fbufSize = s.fbufSize := rfl
@[simp] theorem clearStatus_crc (s : State) : (clearStatus s).crc = s.crc := rfl
@[simp] theorem clearStatus_addr (s : State) : (clearStatus s).addr = s.addr := rfl
@[simp] theorem clearStatus_fc (s : State) : (clearStatus s).fc = s.fc := rfl
@[simp] theorem clearStatus_ptr (s : State) : (clearStatus s).ptr = s.ptr := rfl
@[simp] theorem clearStatus_len (s : State) : (clearStatus s).len = s.len := rfl
@[simp] theorem clearStatus_rxAddr (s : State) : (clearStatus s).rxAddr = s.rxAddr := rfl
@[simp] theorem clearStatus_rxFc (s : State) : (clearStatus s).rxFc = s.rxFc := rfl
@[simp] theorem clearStatus_exc (s : State) : (clearStatus s).exc = s.exc := rfl
@[simp] theorem clearStatus_rxCrc (s : State) : (clearStatus s).rxCrc = s.rxCrc := rfl
@[simp] theorem clearStatus_result (s : State) : (clearStatus s).result = 0#3 := rfl
@[simp] theorem clearStatus_addrMatch (s : State) : (clearStatus s).addrMatch = false := rfl
@[simp] theorem clearStatus_fcMatch (s : State) : (clearStatus s).fcMatch = false := rfl
@[simp] theorem clearStatus_ovf (s : State) : (clearStatus s).ovf = false := rfl
@[simp] theorem clearStatus_ill (s : State) : (clearStatus s).ill = false := rfl
@[simp] theorem clearStatus_fbuf (s : State) : (clearStatus s).fbuf = s.fbuf := rfl
@[simp] theorem clearStatus_responses (s : State) : (clearStatus s).responses = s.responses := rfl
@[simp] theorem clearStatus_host (s : State) : (clearStatus s).host = s.host := rfl

@[simp] theorem storeByte_fbufSize (a : Nat) (v : Byte) (s : State) : (storeByte a v s).fbufSize = s.fbufSize := rfl
@[simp] theorem storeByte_crc (a : Nat) (v : Byte) (s : State) : (storeByte a v s).crc = s.crc := rfl
@[simp] theorem storeByte_addr (a : Nat) (v : Byte) (s : State) : (storeByte a v s).addr = s.addr := rfl
@[simp] theorem storeByte_fc (a : Nat) (v : Byte) (s : State) : (storeByte a v s).fc = s.fc := rfl
@[simp] theorem storeByte_ptr (a : Nat) (v : Byte) (s : State) : (storeByte a v s).ptr = s.ptr := rfl
@[simp] theorem storeByte_len (a : Nat) (v : Byte) (s : State) : (storeByte a v s).len = s.len := rfl
@[simp] theorem storeByte_rxAddr (a : Nat) (v : Byte) (s : State) : (storeByte a v s).rxAddr = s.rxAddr := rfl
@[simp] theorem storeByte_rxFc (a : Nat) (v : Byte) (s : State) : (storeByte a v s).rxFc = s.rxFc := rfl
@[simp] theorem storeByte_exc (a : Nat) (v : Byte) (s : State) : (storeByte a v s).exc = s.exc := rfl
@[simp] theorem storeByte_rxCrc (a : Nat) (v : Byte) (s : State) : (storeByte a v s).rxCrc = s.rxCrc := rfl
@[simp] theorem storeByte_result (a : Nat) (v : Byte) (s : State) : (storeByte a v s).result = s.result := rfl
@[simp] theorem storeByte_addrMatch (a : Nat) (v : Byte) (s : State) : (storeByte a v s).addrMatch = s.addrMatch := rfl
@[simp] theorem storeByte_fcMatch (a : Nat) (v : Byte) (s : State) : (storeByte a v s).fcMatch = s.fcMatch := rfl
@[simp] theorem storeByte_ovf (a : Nat) (v : Byte) (s : State) : (storeByte a v s).ovf = s.ovf := rfl
@[simp] theorem storeByte_ill (a : Nat) (v : Byte) (s : State) : (storeByte a v s).ill = s.ill := rfl
@[simp] theorem storeByte_fbuf (a : Nat) (v : Byte) (s : State) : (storeByte a v s).fbuf = s.fbuf.setByte a v := rfl
@[simp] theorem storeByte_responses (a : Nat) (v : Byte) (s : State) : (storeByte a v s).responses = s.responses := rfl
@[simp] theorem storeByte_host (a : Nat) (v : Byte) (s : State) : (storeByte a v s).host = s.host := rfl

@[simp] theorem emit_fbufSize (v : Byte) (s : State) : (emit v s).fbufSize = s.fbufSize := rfl
@[simp] theorem emit_crc (v : Byte) (s : State) : (emit v s).crc = s.crc := rfl
@[simp] theorem emit_addr (v : Byte) (s : State) : (emit v s).addr = s.addr := rfl
@[simp] theorem emit_fc (v : Byte) (s : State) : (emit v s).fc = s.fc := rfl
@[simp] theorem emit_ptr (v : Byte) (s : State) : (emit v s).ptr = s.ptr := rfl
@[simp] theorem emit_len (v : Byte) (s : State) : (emit v s).len = s.len := rfl
@[simp] theorem emit_rxAddr (v : Byte) (s : State) : (emit v s).rxAddr = s.rxAddr := rfl
@[simp] theorem emit_rxFc (v : Byte) (s : State) : (emit v s).rxFc = s.rxFc := rfl
@[simp] theorem emit_exc (v : Byte) (s : State) : (emit v s).exc = s.exc := rfl
@[simp] theorem emit_rxCrc (v : Byte) (s : State) : (emit v s).rxCrc = s.rxCrc := rfl
@[simp] theorem emit_result (v : Byte) (s : State) : (emit v s).result = s.result := rfl
@[simp] theorem emit_addrMatch (v : Byte) (s : State) : (emit v s).addrMatch = s.addrMatch := rfl
@[simp] theorem emit_fcMatch (v : Byte) (s : State) : (emit v s).fcMatch = s.fcMatch := rfl
@[simp] theorem emit_ovf (v : Byte) (s : State) : (emit v s).ovf = s.ovf := rfl
@[simp] theorem emit_ill (v : Byte) (s : State) : (emit v s).ill = s.ill := rfl
@[simp] theorem emit_fbuf (v : Byte) (s : State) : (emit v s).fbuf = s.fbuf := rfl
@[simp] theorem emit_responses (v : Byte) (s : State) : (emit v s).responses = s.responses ++ [v] := rfl
@[simp] theorem emit_host (v : Byte) (s : State) : (emit v s).host = s.host := rfl

@[simp] theorem advancePtr_fbufSize (s : State) : (advancePtr s).fbufSize = s.fbufSize := rfl
@[simp] theorem advancePtr_crc (s : State) : (advancePtr s).crc = s.crc := rfl
@[simp] theorem advancePtr_addr (s : State) : (advancePtr s).addr = s.addr := rfl
@[simp] theorem advancePtr_fc (s : State) : (advancePtr s).fc = s.fc := rfl
@[simp] theorem advancePtr_ptr (s : State) : (advancePtr s).ptr = s.ptr + 1#9 := rfl
@[simp] theorem advancePtr_len (s : State) : (advancePtr s).len = s.len := rfl
@[simp] theorem advancePtr_rxAddr (s : State) : (advancePtr s).rxAddr = s.rxAddr := rfl
@[simp] theorem advancePtr_rxFc (s : State) : (advancePtr s).rxFc = s.rxFc := rfl
@[simp] theorem advancePtr_exc (s : State) : (advancePtr s).exc = s.exc := rfl
@[simp] theorem advancePtr_rxCrc (s : State) : (advancePtr s).rxCrc = s.rxCrc := rfl
@[simp] theorem advancePtr_result (s : State) : (advancePtr s).result = s.result := rfl
@[simp] theorem advancePtr_addrMatch (s : State) : (advancePtr s).addrMatch = s.addrMatch := rfl
@[simp] theorem advancePtr_fcMatch (s : State) : (advancePtr s).fcMatch = s.fcMatch := rfl
@[simp] theorem advancePtr_ovf (s : State) : (advancePtr s).ovf = s.ovf := rfl
@[simp] theorem advancePtr_ill (s : State) : (advancePtr s).ill = s.ill := rfl
@[simp] theorem advancePtr_fbuf (s : State) : (advancePtr s).fbuf = s.fbuf := rfl
@[simp] theorem advancePtr_responses (s : State) : (advancePtr s).responses = s.responses := rfl
@[simp] theorem advancePtr_host (s : State) : (advancePtr s).host = s.host := rfl

@[simp] theorem advanceHost_fbufSize (s : State) : (advanceHost s).fbufSize = s.fbufSize := rfl
@[simp] theorem advanceHost_crc (s : State) : (advanceHost s).crc = s.crc := rfl
@[simp] theorem advanceHost_addr (s : State) : (advanceHost s).addr = s.addr := rfl
@[simp] theorem advanceHost_fc (s : State) : (advanceHost s).fc = s.fc := rfl
@[simp] theorem advanceHost_ptr (s : State) : (advanceHost s).ptr = s.ptr := rfl
@[simp] theorem advanceHost_len (s : State) : (advanceHost s).len = s.len := rfl
@[simp] theorem advanceHost_rxAddr (s : State) : (advanceHost s).rxAddr = s.rxAddr := rfl
@[simp] theorem advanceHost_rxFc (s : State) : (advanceHost s).rxFc = s.rxFc := rfl
@[simp] theorem advanceHost_exc (s : State) : (advanceHost s).exc = s.exc := rfl
@[simp] theorem advanceHost_rxCrc (s : State) : (advanceHost s).rxCrc = s.rxCrc := rfl
@[simp] theorem advanceHost_result (s : State) : (advanceHost s).result = s.result := rfl
@[simp] theorem advanceHost_addrMatch (s : State) : (advanceHost s).addrMatch = s.addrMatch := rfl
@[simp] theorem advanceHost_fcMatch (s : State) : (advanceHost s).fcMatch = s.fcMatch := rfl
@[simp] theorem advanceHost_ovf (s : State) : (advanceHost s).ovf = s.ovf := rfl
@[simp] theorem advanceHost_ill (s : State) : (advanceHost s).ill = s.ill := rfl
@[simp] theorem advanceHost_fbuf (s : State) : (advanceHost s).fbuf = s.fbuf := rfl
@[simp] theorem advanceHost_responses (s : State) : (advanceHost s).responses = s.responses := rfl
@[simp] theorem advanceHost_host (s : State) : (advanceHost s).host = ⟨s.host.program, s.host.index + 1⟩ := rfl

@[simp] theorem resetWith_fbufSize (size : Nat) (h : HostSide) : (State.resetWith size h).fbufSize = size := rfl
@[simp] theorem resetWith_crc (size : Nat) (h : HostSide) : (State.resetWith size h).crc = 0xFFFF#16 := rfl
@[simp] theorem resetWith_addr (size : Nat) (h : HostSide) : (State.resetWith size h).addr = 0#8 := rfl
@[simp] theorem resetWith_fc (size : Nat) (h : HostSide) : (State.resetWith size h).fc = 0#8 := rfl
@[simp] theorem resetWith_ptr (size : Nat) (h : HostSide) : (State.resetWith size h).ptr = 0#9 := rfl
@[simp] theorem resetWith_len (size : Nat) (h : HostSide) : (State.resetWith size h).len = 0#9 := rfl
@[simp] theorem resetWith_rxAddr (size : Nat) (h : HostSide) : (State.resetWith size h).rxAddr = 0#8 := rfl
@[simp] theorem resetWith_rxFc (size : Nat) (h : HostSide) : (State.resetWith size h).rxFc = 0#8 := rfl
@[simp] theorem resetWith_exc (size : Nat) (h : HostSide) : (State.resetWith size h).exc = 0#8 := rfl
@[simp] theorem resetWith_rxCrc (size : Nat) (h : HostSide) : (State.resetWith size h).rxCrc = 0#16 := rfl
@[simp] theorem resetWith_result (size : Nat) (h : HostSide) : (State.resetWith size h).result = 0#3 := rfl
@[simp] theorem resetWith_addrMatch (size : Nat) (h : HostSide) : (State.resetWith size h).addrMatch = false := rfl
@[simp] theorem resetWith_fcMatch (size : Nat) (h : HostSide) : (State.resetWith size h).fcMatch = false := rfl
@[simp] theorem resetWith_ovf (size : Nat) (h : HostSide) : (State.resetWith size h).ovf = false := rfl
@[simp] theorem resetWith_ill (size : Nat) (h : HostSide) : (State.resetWith size h).ill = false := rfl
@[simp] theorem resetWith_fbuf (size : Nat) (h : HostSide) : (State.resetWith size h).fbuf = [] := rfl
@[simp] theorem resetWith_responses (size : Nat) (h : HostSide) : (State.resetWith size h).responses = [] := rfl
@[simp] theorem resetWith_host (size : Nat) (h : HostSide) : (State.resetWith size h).host = h := rfl

@[simp] theorem reset_eq : State.reset = State.resetWith 256 ⟨[], 0⟩ := rfl
@[simp] theorem applyReset_eq (p : Option Word) (s : State) : applyReset p s = State.resetWith s.fbufSize s.host := rfl
@[simp] theorem issuing_fbufSize (s : State) (program : List Instr) : (s.issuing program).fbufSize = s.fbufSize := rfl
@[simp] theorem issuing_crc (s : State) (program : List Instr) : (s.issuing program).crc = s.crc := rfl
@[simp] theorem issuing_addr (s : State) (program : List Instr) : (s.issuing program).addr = s.addr := rfl
@[simp] theorem issuing_fc (s : State) (program : List Instr) : (s.issuing program).fc = s.fc := rfl
@[simp] theorem issuing_ptr (s : State) (program : List Instr) : (s.issuing program).ptr = s.ptr := rfl
@[simp] theorem issuing_len (s : State) (program : List Instr) : (s.issuing program).len = s.len := rfl
@[simp] theorem issuing_rxAddr (s : State) (program : List Instr) : (s.issuing program).rxAddr = s.rxAddr := rfl
@[simp] theorem issuing_rxFc (s : State) (program : List Instr) : (s.issuing program).rxFc = s.rxFc := rfl
@[simp] theorem issuing_exc (s : State) (program : List Instr) : (s.issuing program).exc = s.exc := rfl
@[simp] theorem issuing_rxCrc (s : State) (program : List Instr) : (s.issuing program).rxCrc = s.rxCrc := rfl
@[simp] theorem issuing_result (s : State) (program : List Instr) : (s.issuing program).result = s.result := rfl
@[simp] theorem issuing_addrMatch (s : State) (program : List Instr) : (s.issuing program).addrMatch = s.addrMatch := rfl
@[simp] theorem issuing_fcMatch (s : State) (program : List Instr) : (s.issuing program).fcMatch = s.fcMatch := rfl
@[simp] theorem issuing_ovf (s : State) (program : List Instr) : (s.issuing program).ovf = s.ovf := rfl
@[simp] theorem issuing_ill (s : State) (program : List Instr) : (s.issuing program).ill = s.ill := rfl
@[simp] theorem issuing_fbuf (s : State) (program : List Instr) : (s.issuing program).fbuf = s.fbuf := rfl
@[simp] theorem issuing_responses (s : State) (program : List Instr) : (s.issuing program).responses = s.responses := rfl
@[simp] theorem issuing_host (s : State) (program : List Instr) : (s.issuing program).host = ⟨program.map (fun i => .command (encode i)), 0⟩ := rfl

end Sys2Proof.Machine
end

