-- ==== Sys2Proof/Laws/Memory.lean ====
section
/-! SUPPORT. FBUF's laws: read after write, and the canonical form that every write keeps. -/

namespace Sys2Proof.Machine

@[simp] theorem Memory.byteAt_nil (a : Nat) : Memory.byteAt [] a = none := rfl

theorem Memory.byteAt_cons (k : Nat) (v : Byte) (m : Memory) (a : Nat) :
    Memory.byteAt ((k, v) :: m) a = if k = a then some v else Memory.byteAt m a := rfl

/-- Read after write: the stored byte at its address, the old byte everywhere else. -/
theorem Memory.byteAt_setByte (m : Memory) (a b : Nat) (v : Byte) :
    (Memory.setByte m a v).byteAt b = if a = b then some v else Memory.byteAt m b := by
  induction m with
  | nil => rfl
  | cons cell rest ih =>
    obtain ⟨k, w⟩ := cell
    simp only [Memory.setByte]
    split
    · simp only [Memory.byteAt_cons]
    · split
      · next h => subst h; simp only [Memory.byteAt_cons]; split <;> rfl
      · next h =>
        simp only [Memory.byteAt_cons, ih]
        split
        · next hk => subst hk; rw [if_neg h]
        · rfl

/-- A write lists no address but its own beside those listed before. -/
theorem Memory.mem_setByte {m : Memory} {a : Nat} {v : Byte} {cell : Host.Cell}
    (h : cell ∈ Memory.setByte m a v) : cell = (a, v) ∨ cell ∈ m := by
  induction m with
  | nil => simpa [Memory.setByte] using h
  | cons head rest ih =>
    simp only [Memory.setByte] at h
    split at h
    · simpa using h
    · split at h
      · rcases List.mem_cons.1 h with h | h
        · exact .inl h
        · exact .inr (List.mem_cons_of_mem _ h)
      · rcases List.mem_cons.1 h with h | h
        · exact .inr (h ▸ List.mem_cons_self)
        · exact (ih h).imp_right (List.mem_cons_of_mem _)

/-- A write keeps the canonical form. -/
theorem Memory.wf_setByte {m : Memory} (h : m.wf) (a : Nat) (v : Byte) : (Memory.setByte m a v).wf := by
  induction m with
  | nil => exact List.pairwise_singleton _ _
  | cons head rest ih =>
    obtain ⟨k, w⟩ := head
    have hk : ∀ cell ∈ rest, k < cell.1 := (List.pairwise_cons.1 h).1
    have hr : Memory.wf rest := (List.pairwise_cons.1 h).2
    simp only [Memory.setByte]
    split
    · next hlt =>
      refine List.pairwise_cons.2 ⟨fun cell hc => ?_, h⟩
      rcases List.mem_cons.1 hc with rfl | hc
      · exact hlt
      · exact Nat.lt_trans hlt (hk cell hc)
    · split
      · next heq => subst heq; exact List.pairwise_cons.2 ⟨hk, hr⟩
      · next hlt hne =>
        refine List.pairwise_cons.2 ⟨fun cell hc => ?_, ih hr⟩
        rcases Memory.mem_setByte hc with rfl | hc
        · show k < a
          omega
        · exact hk cell hc

theorem reset_fbuf_wf : State.reset.fbuf.wf := List.Pairwise.nil

/-- An address lists a byte only if some cell of the memory has it. -/
theorem Memory.mem_of_byteAt {m : Memory} {a : Nat} {v : Byte} (h : m.byteAt a = some v) : (a, v) ∈ m := by
  induction m with
  | nil => simp at h
  | cons head rest ih =>
    obtain ⟨k, w⟩ := head
    rw [Memory.byteAt_cons] at h
    split at h
    · next hk =>
      subst hk
      obtain rfl : w = v := by simpa using h
      exact List.mem_cons_self
    · exact List.mem_cons_of_mem _ (ih h)

/-- All that MemRead can answer. -/
theorem memRead_ok {s : State} {a : Nat} {v : Byte} :
    memRead s a = .ok v ↔ a < s.fbufSize ∧ s.fbuf.byteAt a = some v := by
  unfold memRead
  split
  · next h => cases hb : s.fbuf.byteAt a <;> simp [h]
  · next h => simp [h]

/-- MemRead faults past FBUF_SIZE and on a byte never written, and nowhere else. -/
theorem memRead_error {s : State} {a : Nat} {f : Fault} :
    memRead s a = .error f ↔
      (a < s.fbufSize ∧ s.isWritten a = false ∧ f = .fbufUnwritten a) ∨
      (s.fbufSize ≤ a ∧ f = .fbufNoSuchAddress a) := by
  unfold memRead State.isWritten
  split
  · next h =>
    have hn : ¬ s.fbufSize ≤ a := Nat.not_le.2 h
    cases hb : s.fbuf.byteAt a <;> simp [h, hn, @eq_comm Fault f]
  · next h => simp [h, Nat.le_of_not_lt h, @eq_comm Fault f]

/-- A written byte below FBUF_SIZE can be read. -/
theorem memRead_of_isWritten {s : State} {a : Nat} (ha : a < s.fbufSize) (hw : s.isWritten a = true) :
    ∃ v, memRead s a = .ok v := by
  obtain ⟨v, hv⟩ := Option.isSome_iff_exists.1 hw
  exact ⟨v, memRead_ok.2 ⟨ha, hv⟩⟩

/-- All that MemWrite can answer. -/
theorem memWrite_ok {s t : State} {a : Nat} {v : Byte} :
    memWrite s a v = .ok t ↔ a < s.fbufSize ∧ t = storeByte a v s := by
  unfold memWrite
  split <;> simp [*, eq_comm]

theorem memWrite_of_lt {s : State} {a : Nat} (v : Byte) (h : a < s.fbufSize) :
    memWrite s a v = .ok (storeByte a v s) := if_pos h

/-- MemRead at an address sees FBUF_SIZE and the FBUF byte at that address only. -/
theorem memRead_congr_at {s t : State} {a : Nat} (hs : t.fbufSize = s.fbufSize) (hm : t.fbuf.byteAt a = s.fbuf.byteAt a) :
    memRead t a = memRead s a := by
  unfold memRead
  rw [hs, hm]

/-- MemRead sees FBUF_SIZE and FBUF only. -/
theorem memRead_congr {s t : State} (hs : t.fbufSize = s.fbufSize) (hm : t.fbuf = s.fbuf) (a : Nat) :
    memRead t a = memRead s a := memRead_congr_at hs (hm ▸ rfl)

/-- MemRead after a store: the stored byte at its address, the old answer everywhere else. -/
theorem memRead_storeByte {s : State} {a : Nat} (h : a < s.fbufSize) (v : Byte) (b : Nat) :
    memRead (storeByte a v s) b = if a = b then .ok v else memRead s b := by
  unfold memRead
  simp only [storeByte_fbuf, storeByte_fbufSize, Memory.byteAt_setByte]
  by_cases hab : a = b
  · subst hab; simp [h]
  · simp [hab]

@[simp] theorem memRead_advancePtr (s : State) (a : Nat) : memRead (advancePtr s) a = memRead s a := rfl
@[simp] theorem memRead_emit (v : Byte) (s : State) (a : Nat) : memRead (emit v s) a = memRead s a := rfl
@[simp] theorem memRead_setOvf (s : State) (a : Nat) : memRead (setOvf s) a = memRead s a := rfl
@[simp] theorem memRead_setIll (s : State) (a : Nat) : memRead (setIll s) a = memRead s a := rfl
@[simp] theorem memRead_advanceHost (s : State) (a : Nat) : memRead (advanceHost s) a = memRead s a := rfl

@[simp] theorem memReadRange_zero (s : State) (a : Nat) : memReadRange s a 0 = .ok [] := rfl

/-- A run of reads is one read and the run that follows it. -/
theorem memReadRange_succ_ok {s : State} {a n : Nat} {bytes : List Byte} :
    memReadRange s a (n + 1) = .ok bytes ↔
      ∃ v rest, memRead s a = .ok v ∧ memReadRange s (a + 1) n = .ok rest ∧ bytes = v :: rest := by
  simp only [memReadRange]
  cases memRead s a with
  | error f => simp [bind, Except.bind]
  | ok v =>
    cases memReadRange s (a + 1) n with
    | error f => simp [bind, Except.bind]
    | ok rest => simp [bind, Except.bind, pure, Except.pure, eq_comm]

/-- A run of reads answers exactly the bytes the range holds. -/
theorem memReadRange_ok {s : State} {a n : Nat} {bytes : List Byte} :
    memReadRange s a n = .ok bytes ↔ bytes.length = n ∧ s.Holds a bytes := by
  induction n generalizing a bytes with
  | zero =>
    simp only [memReadRange_zero, Except.ok.injEq]
    constructor
    · rintro rfl
      exact ⟨rfl, fun k h => absurd h (Nat.not_lt_zero k)⟩
    · rintro ⟨h, -⟩
      exact (List.length_eq_zero_iff.1 h).symm
  | succ n ih =>
    rw [memReadRange_succ_ok]
    constructor
    · rintro ⟨v, rest, hv, hrest, rfl⟩
      obtain ⟨hlen, hh⟩ := ih.1 hrest
      refine ⟨by simp [hlen], fun k hk => ?_⟩
      cases k with
      | zero => simpa using hv
      | succ k =>
        have := hh k (by simpa using hk)
        simpa [Nat.add_comm, Nat.add_left_comm] using this
    · rintro ⟨hlen, hh⟩
      cases bytes with
      | nil => simp at hlen
      | cons v rest =>
        refine ⟨v, rest, hh 0 (Nat.succ_pos _), ih.2 ⟨by simpa using hlen, fun k hk => ?_⟩, rfl⟩
        have := hh (k + 1) (by simpa using hk)
        simpa [Nat.add_comm, Nat.add_left_comm] using this

/-- A run of reads faults at the first address of the range that faults. -/
theorem memReadRange_error {s : State} {a n : Nat} {f : Fault} (h : memReadRange s a n = .error f) :
    ∃ k < n, memRead s (a + k) = .error f ∧ ∀ j < k, ∃ v, memRead s (a + j) = .ok v := by
  induction n generalizing a with
  | zero => simp at h
  | succ n ih =>
    simp only [memReadRange] at h
    cases hv : memRead s a with
    | error g =>
      rw [hv] at h
      obtain rfl : g = f := by simpa [bind, Except.bind] using h
      exact ⟨0, Nat.succ_pos n, hv, fun j hj => absurd hj (Nat.not_lt_zero j)⟩
    | ok v =>
      rw [hv] at h
      cases hr : memReadRange s (a + 1) n with
      | ok rest =>
        rw [hr] at h
        simp [bind, Except.bind, pure, Except.pure] at h
      | error g =>
        rw [hr] at h
        obtain rfl : g = f := by simpa [bind, Except.bind] using h
        obtain ⟨k, hk, he, hbefore⟩ := ih hr
        refine ⟨k + 1, Nat.succ_lt_succ hk, by rwa [Nat.add_right_comm] at he, fun j hj => ?_⟩
        cases j with
        | zero => exact ⟨v, hv⟩
        | succ j =>
          obtain ⟨w, hw⟩ := hbefore j (Nat.lt_of_succ_lt_succ hj)
          exact ⟨w, by rwa [Nat.add_right_comm] at hw⟩

/-- A range all of whose bytes are written and in FBUF can be read. -/
theorem memReadRange_of_writtenRange {s : State} {a n : Nat} (hn : a + n ≤ s.fbufSize) (hw : s.WrittenRange a n) :
    ∃ bytes, memReadRange s a n = .ok bytes := by
  cases h : memReadRange s a n with
  | ok bytes => exact ⟨bytes, rfl⟩
  | error f =>
    obtain ⟨k, hk, he, -⟩ := memReadRange_error h
    obtain ⟨v, hv⟩ := memRead_of_isWritten (by omega) (hw k hk)
    rw [he] at hv
    cases hv

/-- A run of reads sees FBUF_SIZE and the FBUF bytes of its range only. -/
theorem memReadRange_congr_at {s t : State} {a n : Nat} (hs : t.fbufSize = s.fbufSize)
    (hm : ∀ k < n, t.fbuf.byteAt (a + k) = s.fbuf.byteAt (a + k)) : memReadRange t a n = memReadRange s a n := by
  induction n generalizing a with
  | zero => rfl
  | succ n ih =>
    have head : memRead t a = memRead s a := memRead_congr_at hs (hm 0 (by omega))
    have tail : memReadRange t (a + 1) n = memReadRange s (a + 1) n :=
      ih fun k hk => by rw [Nat.add_assoc, Nat.add_comm 1 k]; exact hm (k + 1) (by omega)
    simp only [memReadRange, head, tail]

theorem memReadRange_congr {s t : State} (hs : t.fbufSize = s.fbufSize) (hm : t.fbuf = s.fbuf) (a n : Nat) :
    memReadRange t a n = memReadRange s a n := memReadRange_congr_at hs fun _ _ => hm ▸ rfl

/-- A command made of FBUF accesses answers next only where they all succeed. -/
theorem finish_next {r : Except Fault State} {t : State} : finish r = .next t ↔ r = .ok t := by
  cases r <;> simp [finish]

theorem finish_fault {r : Except Fault State} {f : Fault} : finish r = .fault f ↔ r = .error f := by
  cases r <;> simp [finish]

@[simp] theorem finish_ok (t : State) : finish (.ok t) = .next t := rfl

theorem finish_not_refused (r : Except Fault State) (q : Refusal) : finish r ≠ .refused q := by
  cases r <;> simp [finish]

end Sys2Proof.Machine
end

