-- ==== Sys2Proof/Laws/Exec.lean ====
section
/-! SUPPORT. What each meaning can answer, said once: later proofs cite these and do not unfold the meanings. -/

namespace Sys2Proof.Machine

theorem ptrAtEnd_iff {s : State} : ptrAtEnd s = true ↔ s.ptr.toNat = s.fbufSize := by
  simp [ptrAtEnd]

theorem indexOperand_toNat (imm : Byte) : (indexOperand imm).toNat = imm.toNat := by
  simp only [indexOperand, BitVec.toNat_setWidth]
  omega

/-- SET_PTR answers next always. -/
theorem execSetPtr_eq (imm : Byte) (s : State) :
    execSetPtr imm s = .next (if imm.toNat > s.fbufSize then setOvf s else { s with ptr := indexOperand imm }) := by
  unfold execSetPtr
  rw [indexOperand_toNat]
  split <;> rfl

/-- All that BUF_WR can answer next. -/
theorem execBufWr_next {imm : Byte} {s t : State} :
    execBufWr imm s = .next t ↔
      (s.ptr.toNat = s.fbufSize ∧ t = setOvf s) ∨
      (s.ptr.toNat < s.fbufSize ∧ t = advancePtr (storeByte s.ptr.toNat imm s)) := by
  unfold execBufWr
  split
  · next h =>
    rw [ptrAtEnd_iff] at h
    simp [h, @eq_comm State t]
  · next h =>
    rw [ptrAtEnd_iff] at h
    simp only [effectiveAddress, dataOperand, memWrite]
    by_cases hlt : s.ptr.toNat < s.fbufSize
    · simp [h, hlt, bind, Except.bind, pure, Except.pure, @eq_comm State t]
    · simp [h, hlt, bind, Except.bind, finish]

/-- BUF_WR faults only at an address past FBUF. -/
theorem execBufWr_fault {imm : Byte} {s : State} {f : Fault} :
    execBufWr imm s = .fault f ↔ s.fbufSize < s.ptr.toNat ∧ f = .fbufNoSuchAddress s.ptr.toNat := by
  unfold execBufWr
  split
  · next h =>
    rw [ptrAtEnd_iff] at h
    simp [h]
  · next h =>
    rw [ptrAtEnd_iff] at h
    simp only [effectiveAddress, dataOperand, memWrite]
    by_cases hlt : s.ptr.toNat < s.fbufSize
    · have hn : ¬ s.fbufSize < s.ptr.toNat := by omega
      simp [hlt, hn, bind, Except.bind, pure, Except.pure]
    · have hgt : s.fbufSize < s.ptr.toNat := by omega
      simp [hlt, hgt, bind, Except.bind, finish, @eq_comm Fault f]

/-- All that BUF_RD can answer next. -/
theorem execBufRd_next (imm : Byte) {s t : State} :
    execBufRd imm s = .next t ↔
      (s.ptr.toNat = s.fbufSize ∧ t = emit 0x00#8 (setOvf s)) ∨
      (s.ptr.toNat ≠ s.fbufSize ∧ ∃ v, memRead s s.ptr.toNat = .ok v ∧ t = advancePtr (emit v s)) := by
  unfold execBufRd
  split
  · next h =>
    rw [ptrAtEnd_iff] at h
    simp [h, @eq_comm State t]
  · next h =>
    rw [ptrAtEnd_iff] at h
    simp only [effectiveAddress]
    cases hr : memRead s s.ptr.toNat with
    | error f => simp [h, bind, Except.bind, finish]
    | ok v => simp [h, bind, Except.bind, pure, Except.pure, @eq_comm State t]

/-- BUF_RD faults only where its one MemRead does. -/
theorem execBufRd_fault (imm : Byte) {s : State} {f : Fault} :
    execBufRd imm s = .fault f ↔ s.ptr.toNat ≠ s.fbufSize ∧ memRead s s.ptr.toNat = .error f := by
  unfold execBufRd
  split
  · next h =>
    rw [ptrAtEnd_iff] at h
    simp [h]
  · next h =>
    rw [ptrAtEnd_iff] at h
    simp only [effectiveAddress]
    cases hr : memRead s s.ptr.toNat with
    | error g => simp [h, bind, Except.bind, finish]
    | ok v => simp [h, bind, Except.bind, pure, Except.pure]

theorem encodeInBounds_iff {s : State} :
    encodeInBounds s = true ↔ 2 ≤ s.ptr.toNat ∧ s.ptr.toNat ≤ s.fbufSize - 2 := by
  simp [encodeInBounds]

/-- The state after ENCODE's header writes (spec/42_frame.md R142). -/
def withHeader (s : State) : State := storeByte 1 s.fc (storeByte 0 s.addr s)

/-- The state after ENCODE, for the body it read. -/
def withFrame (body : List Byte) (s : State) : State :=
  let c := bodyCrc body
  let p := s.ptr.toNat
  setMatch false false (setResult resultOk
    { storeByte (p + 1) (highByte c) (storeByte p (lowByte c) (withHeader s)) with
      crc := c, len := s.ptr + 2#9, ptr := 0#9 })

@[simp] theorem withFrame_fbufSize (body : List Byte) (s : State) : (withFrame body s).fbufSize = s.fbufSize := rfl
@[simp] theorem withFrame_crc (body : List Byte) (s : State) : (withFrame body s).crc = bodyCrc body := rfl
@[simp] theorem withFrame_addr (body : List Byte) (s : State) : (withFrame body s).addr = s.addr := rfl
@[simp] theorem withFrame_fc (body : List Byte) (s : State) : (withFrame body s).fc = s.fc := rfl
@[simp] theorem withFrame_ptr (body : List Byte) (s : State) : (withFrame body s).ptr = 0#9 := rfl
@[simp] theorem withFrame_len (body : List Byte) (s : State) : (withFrame body s).len = s.ptr + 2#9 := rfl
@[simp] theorem withFrame_rxAddr (body : List Byte) (s : State) : (withFrame body s).rxAddr = s.rxAddr := rfl
@[simp] theorem withFrame_rxFc (body : List Byte) (s : State) : (withFrame body s).rxFc = s.rxFc := rfl
@[simp] theorem withFrame_exc (body : List Byte) (s : State) : (withFrame body s).exc = s.exc := rfl
@[simp] theorem withFrame_rxCrc (body : List Byte) (s : State) : (withFrame body s).rxCrc = s.rxCrc := rfl
@[simp] theorem withFrame_result (body : List Byte) (s : State) : (withFrame body s).result = 0#3 := rfl
@[simp] theorem withFrame_addrMatch (body : List Byte) (s : State) : (withFrame body s).addrMatch = false := rfl
@[simp] theorem withFrame_fcMatch (body : List Byte) (s : State) : (withFrame body s).fcMatch = false := rfl
@[simp] theorem withFrame_ovf (body : List Byte) (s : State) : (withFrame body s).ovf = s.ovf := rfl
@[simp] theorem withFrame_ill (body : List Byte) (s : State) : (withFrame body s).ill = s.ill := rfl
@[simp] theorem withFrame_responses (body : List Byte) (s : State) : (withFrame body s).responses = s.responses := rfl
@[simp] theorem withFrame_host (body : List Byte) (s : State) : (withFrame body s).host = s.host := rfl

/-- Within its bound, ENCODE makes four writes that succeed and one run of reads. -/
theorem buildFrame_eq {s : State} (h : encodeInBounds s = true) :
    buildFrame s =
      match memReadRange (withHeader s) 0 s.ptr.toNat with
      | .ok body => .ok (withFrame body s)
      | .error f => .error f := by
  rw [encodeInBounds_iff] at h
  unfold buildFrame
  rw [memWrite_of_lt s.addr (show 0 < s.fbufSize by omega)]
  simp only [bind, Except.bind]
  rw [memWrite_of_lt _ (show 1 < (storeByte 0 s.addr s).fbufSize by simp; omega)]
  rw [show storeByte 1 (storeByte 0 s.addr s).fc (storeByte 0 s.addr s) = withHeader s from rfl]
  cases hb : memReadRange (withHeader s) 0 s.ptr.toNat with
  | error f => simp only [hb]
  | ok body =>
    simp only [hb]
    rw [memWrite_of_lt _ (show s.ptr.toNat < (withHeader s).fbufSize by simp [withHeader]; omega)]
    simp only
    rw [memWrite_of_lt _ (by simp [withHeader]; omega)]
    rfl

/-- All that ENCODE can answer next. -/
theorem execEncodeFrame_next (imm : Byte) {s t : State} :
    execEncodeFrame imm s = .next t ↔
      (encodeInBounds s = false ∧ t = setMatch false false (setResult resultLength s)) ∨
      (encodeInBounds s = true ∧ ∃ body, memReadRange (withHeader s) 0 s.ptr.toNat = .ok body ∧ t = withFrame body s) := by
  unfold execEncodeFrame
  split
  · next h =>
    rw [finish_next, buildFrame_eq h]
    cases memReadRange (withHeader s) 0 s.ptr.toNat <;> simp [h, @eq_comm State t]
  · next h => simp [h, @eq_comm State t]

/-- ENCODE faults only where its run of reads does. -/
theorem execEncodeFrame_fault (imm : Byte) {s : State} {f : Fault} :
    execEncodeFrame imm s = .fault f ↔
      encodeInBounds s = true ∧ memReadRange (withHeader s) 0 s.ptr.toNat = .error f := by
  unfold execEncodeFrame
  split
  · next h =>
    rw [finish_fault, buildFrame_eq h]
    cases memReadRange (withHeader s) 0 s.ptr.toNat <;> simp [h]
  · next h => simp [h]

/-- MemRead through the header ENCODE wrote. -/
theorem memRead_withHeader {s : State} (h : 2 ≤ s.fbufSize) (a : Nat) :
    memRead (withHeader s) a = if a = 1 then .ok s.fc else if a = 0 then .ok s.addr else memRead s a := by
  rw [withHeader, memRead_storeByte (by simp; omega), memRead_storeByte (by omega)]
  simp only [@eq_comm Nat a]

/-- MemRead through the frame ENCODE wrote: the CRC bytes at P and P + 1, the header, and the old byte everywhere else. -/
theorem memRead_withFrame {body : List Byte} {s : State} (h : encodeInBounds s = true) (a : Nat) :
    memRead (withFrame body s) a =
      if a = s.ptr.toNat + 1 then .ok (highByte (bodyCrc body))
      else if a = s.ptr.toNat then .ok (lowByte (bodyCrc body))
      else memRead (withHeader s) a := by
  rw [encodeInBounds_iff] at h
  rw [memRead_congr (t := withFrame body s)
      (s := storeByte (s.ptr.toNat + 1) (highByte (bodyCrc body)) (storeByte s.ptr.toNat (lowByte (bodyCrc body)) (withHeader s)))
      rfl rfl,
    memRead_storeByte (by simp [withHeader]; omega), memRead_storeByte (by simp [withHeader]; omega)]
  simp only [@eq_comm Nat a]

theorem readTrailingCrc_ok {s : State} {l : Nat} {rx : Word} :
    readTrailingCrc s l = .ok rx ↔
      ∃ hi lo : Byte, memRead s (l - 1) = .ok hi ∧ memRead s (l - 2) = .ok lo ∧ rx = hi ++ lo := by
  unfold readTrailingCrc
  cases memRead s (l - 1) with
  | error f => simp [bind, Except.bind]
  | ok hi =>
    cases memRead s (l - 2) with
    | error f => simp [bind, Except.bind]
    | ok lo => simp [bind, Except.bind, pure, Except.pure, @eq_comm Word rx]

theorem readTrailingCrc_error {s : State} {l : Nat} {f : Fault} (h : readTrailingCrc s l = .error f) :
    memRead s (l - 1) = .error f ∨ memRead s (l - 2) = .error f := by
  unfold readTrailingCrc at h
  cases hh : memRead s (l - 1) with
  | error g => rw [hh] at h; left; simpa [bind, Except.bind] using h
  | ok hi =>
    cases hl : memRead s (l - 2) with
    | error g => rw [hh, hl] at h; right; simpa [bind, Except.bind] using h
    | ok lo => rw [hh, hl] at h; simp [bind, Except.bind, pure, Except.pure] at h

/-- The trailing CRC of an L-byte frame depends on FBUF_SIZE and on FBUF[L-1] and FBUF[L-2] only. -/
theorem readTrailingCrc_congr_at {s t : State} {l : Nat} (hs : t.fbufSize = s.fbufSize)
    (h1 : t.fbuf.byteAt (l - 1) = s.fbuf.byteAt (l - 1)) (h2 : t.fbuf.byteAt (l - 2) = s.fbuf.byteAt (l - 2)) :
    readTrailingCrc t l = readTrailingCrc s l := by
  unfold readTrailingCrc
  rw [memRead_congr_at hs h1, memRead_congr_at hs h2]

/-- DECODE of a frame of 4 bytes or more is its reads and one check. -/
theorem execDecodeFrame_long (imm : Byte) {s : State} (h : 4 ≤ s.ptr.toNat) :
    execDecodeFrame imm s =
      match memReadRange s 0 (s.ptr.toNat - 2), readTrailingCrc s s.ptr.toNat with
      | .ok body, .ok rx => .next (checkFrame body rx s.ptr.toNat { s with len := s.ptr })
      | .ok _, .error f => .fault f
      | .error f, _ => .fault f := by
  unfold execDecodeFrame
  simp only [show ¬ s.ptr.toNat < 4 by omega, if_false]
  rw [memReadRange_congr (s := s) (t := { s with len := s.ptr }) rfl rfl]
  rw [show readTrailingCrc { s with len := s.ptr } s.ptr.toNat = readTrailingCrc s s.ptr.toNat from rfl]
  cases memReadRange s 0 (s.ptr.toNat - 2) with
  | error f => rfl
  | ok body => cases readTrailingCrc s s.ptr.toNat <;> rfl

/-- All that DECODE can answer next. -/
theorem execDecodeFrame_next (imm : Byte) {s t : State} :
    execDecodeFrame imm s = .next t ↔
      (s.ptr.toNat < 4 ∧ t = setMatch false false (setResult resultShortFrame { s with len := s.ptr })) ∨
      (4 ≤ s.ptr.toNat ∧ ∃ body rx, memReadRange s 0 (s.ptr.toNat - 2) = .ok body ∧
        readTrailingCrc s s.ptr.toNat = .ok rx ∧ t = checkFrame body rx s.ptr.toNat { s with len := s.ptr }) := by
  by_cases h : s.ptr.toNat < 4
  · simp [execDecodeFrame, h, Nat.not_le.2 h, @eq_comm State t]
  · rw [execDecodeFrame_long imm (Nat.le_of_not_lt h)]
    cases memReadRange s 0 (s.ptr.toNat - 2) <;> cases readTrailingCrc s s.ptr.toNat <;>
      simp [h, Nat.le_of_not_lt h, @eq_comm State t]

/-- DECODE faults only where one of its reads does. -/
theorem execDecodeFrame_fault (imm : Byte) {s : State} {f : Fault} (h : execDecodeFrame imm s = .fault f) :
    4 ≤ s.ptr.toNat ∧ ∃ a < s.ptr.toNat, memRead s a = .error f := by
  by_cases h4 : s.ptr.toNat < 4
  · simp [execDecodeFrame, h4] at h
  · have h4' := Nat.le_of_not_lt h4
    refine ⟨h4', ?_⟩
    rw [execDecodeFrame_long imm h4'] at h
    cases hb : memReadRange s 0 (s.ptr.toNat - 2) with
    | error g =>
      rw [hb] at h
      obtain rfl : g = f := by simpa using h
      obtain ⟨k, hk, he, -⟩ := memReadRange_error hb
      exact ⟨0 + k, by omega, he⟩
    | ok body =>
      cases hr : readTrailingCrc s s.ptr.toNat with
      | ok rx => rw [hb, hr] at h; simp at h
      | error g =>
        rw [hb, hr] at h
        obtain rfl : g = f := by simpa using h
        rcases readTrailingCrc_error hr with he | he
        · exact ⟨_, by omega, he⟩
        · exact ⟨_, by omega, he⟩

/-- DECODE's check looks at the bytes it is given, not at FBUF, and leaves FBUF. -/
theorem checkFrame_withFbuf (body : List Byte) (rx : Word) (l : Nat) (s : State) (fbuf : Memory) :
    checkFrame body rx l { s with fbuf := fbuf } = { checkFrame body rx l s with fbuf := fbuf } := by
  unfold checkFrame acceptFrame
  simp only
  split_ifs <;> rfl

/-- DECODE's check as the table of spec/42_frame.md R153 has it: the four outcomes of a frame of 4 bytes or more. -/
theorem checkFrame_cases (body : List Byte) (rx : Word) (l : Nat) (s : State) :
    (bodyCrc body ≠ rx ∧ checkFrame body rx l s =
      { s with crc := bodyCrc body, rxCrc := rx, result := 2#3, addrMatch := false, fcMatch := false }) ∨
    (bodyCrc body = rx ∧ checkFrame body rx l s = acceptFrame body l
      { s with
        crc := rx, rxCrc := rx, rxAddr := body.getD 0 0#8, rxFc := body.getD 1 0#8
        addrMatch := body.getD 0 0#8 == s.addr, fcMatch := body.getD 1 0#8 == s.fc }) := by
  by_cases h : bodyCrc body = rx
  · subst h
    exact .inr ⟨rfl, by simp [checkFrame, setMatch]⟩
  · exact .inl ⟨h, by simp [checkFrame, h, setMatch, setResult, resultCrcMismatch]⟩

theorem acceptFrame_cases (body : List Byte) (l : Nat) (s : State) :
    ((body.getD 1 0#8).getLsbD 7 = true ∧ l < 5 ∧ acceptFrame body l s = { s with result := 1#3 }) ∨
    ((body.getD 1 0#8).getLsbD 7 = true ∧ 5 ≤ l ∧
      acceptFrame body l s = { s with result := 3#3, exc := body.getD 2 0#8, ptr := 2#9 }) ∨
    ((body.getD 1 0#8).getLsbD 7 = false ∧ acceptFrame body l s = { s with result := 0#3, ptr := 2#9 }) := by
  unfold acceptFrame
  by_cases h7 : (body.getD 1 0#8).getLsbD 7 = true
  · rw [if_pos h7]
    by_cases h5 : l < 5
    · exact .inl ⟨h7, h5, by rw [if_pos h5]; rfl⟩
    · exact .inr (.inl ⟨h7, Nat.le_of_not_lt h5, by rw [if_neg h5]; rfl⟩)
  · rw [if_neg h7]
    exact .inr (.inr ⟨by simpa using h7, rfl⟩)

/-- The register map has no byte exactly at the reserved indices (spec/10_state.md R42). -/
theorem regByte_eq_none {s : State} {index : Byte} : regByte s index = none ↔ 0x0F ≤ index.toNat := by
  unfold regByte
  generalize index.toNat = n
  constructor
  · intro h
    by_contra hn
    have hlt : n < 15 := by omega
    interval_cases n <;> simp at h
  · intro h
    split <;> first | omega | rfl

/-- RD_REG answers next always. -/
theorem execRdReg_eq (imm : Byte) (s : State) :
    execRdReg imm s = .next (match regByte s imm with | some v => emit v s | none => emit 0x00#8 (setIll s)) := by
  unfold execRdReg
  cases regByte s imm <;> rfl

end Sys2Proof.Machine
end

