-- ==== Sys2Proof/Laws/PerInstr.lean ====
section
/-! SUPPORT. Facts about every command of the table, one lemma per constructor. -/

/-- The decoder gives a command back from its own word, whatever its IMM. -/
def Sys2Proof.Laws.DecodeEncode.Statement (i : Sys2Proof.Instr) : Prop :=
  Sys2Proof.decodeWord (Sys2Proof.encode i) = .instr i

/-- A command's word compared under the mask 0xFF00 is its opcode shifted to bits 15:8 (spec/30_encoding.md R82). -/
def Sys2Proof.Laws.OpcodeMask.Statement (i : Sys2Proof.Instr) : Prop :=
  Sys2Proof.encode i &&& 0xFF00#16 = (i.opcode.setWidth 16) <<< 8

namespace Sys2Proof.Laws

theorem opcodeMask_encodeFields (op imm : Byte) :
    encodeFields op imm &&& 0xFF00#16 = (op.setWidth 16) <<< 8 := by
  have hmask : ∀ x : Word, x &&& 0xFF00#16 = (x >>> 8) <<< 8 := by
    intro x
    have hbit : ∀ i < 16, (0xFF00#16).getLsbD i = decide (8 ≤ i) := by decide
    apply BitVec.eq_of_getLsbD_eq
    intro i hi
    rw [BitVec.getLsbD_and, hbit i hi, BitVec.getLsbD_shiftLeft, BitVec.getLsbD_ushiftRight]
    by_cases h8 : i < 8
    · simp [h8]
    · rw [show 8 + (i - 8) = i by omega]
      simp [h8, hi, Nat.le_of_not_lt h8]
  rw [hmask]
  congr 1
  apply BitVec.eq_of_toNat_eq
  have := imm.isLt
  have := op.isLt
  rw [BitVec.toNat_ushiftRight, encodeFields_toNat, Nat.shiftRight_eq_div_pow, BitVec.toNat_setWidth]
  omega

namespace DecodeEncode
theorem nop (imm : Byte) : Statement (.nop imm) := by
  simp [Statement, encode, Instr.opcode, Instr.imm, decodeFields, opcodeMap]
theorem crcInit (imm : Byte) : Statement (.crcInit imm) := by
  simp [Statement, encode, Instr.opcode, Instr.imm, decodeFields, opcodeMap]
theorem crcByte (imm : Byte) : Statement (.crcByte imm) := by
  simp [Statement, encode, Instr.opcode, Instr.imm, decodeFields, opcodeMap]
theorem setAddr (imm : Byte) : Statement (.setAddr imm) := by
  simp [Statement, encode, Instr.opcode, Instr.imm, decodeFields, opcodeMap]
theorem setFc (imm : Byte) : Statement (.setFc imm) := by
  simp [Statement, encode, Instr.opcode, Instr.imm, decodeFields, opcodeMap]
theorem setPtr (imm : Byte) : Statement (.setPtr imm) := by
  simp [Statement, encode, Instr.opcode, Instr.imm, decodeFields, opcodeMap]
theorem bufWr (imm : Byte) : Statement (.bufWr imm) := by
  simp [Statement, encode, Instr.opcode, Instr.imm, decodeFields, opcodeMap]
theorem bufRd (imm : Byte) : Statement (.bufRd imm) := by
  simp [Statement, encode, Instr.opcode, Instr.imm, decodeFields, opcodeMap]
theorem encodeFrame (imm : Byte) : Statement (.encodeFrame imm) := by
  simp [Statement, encode, Instr.opcode, Instr.imm, decodeFields, opcodeMap]
theorem decodeFrame (imm : Byte) : Statement (.decodeFrame imm) := by
  simp [Statement, encode, Instr.opcode, Instr.imm, decodeFields, opcodeMap]
theorem rdReg (imm : Byte) : Statement (.rdReg imm) := by
  simp [Statement, encode, Instr.opcode, Instr.imm, decodeFields, opcodeMap]
theorem clrStatus (imm : Byte) : Statement (.clrStatus imm) := by
  simp [Statement, encode, Instr.opcode, Instr.imm, decodeFields, opcodeMap]
end DecodeEncode

namespace OpcodeMask
theorem nop (imm : Byte) : Statement (.nop imm) := opcodeMask_encodeFields _ _
theorem crcInit (imm : Byte) : Statement (.crcInit imm) := opcodeMask_encodeFields _ _
theorem crcByte (imm : Byte) : Statement (.crcByte imm) := opcodeMask_encodeFields _ _
theorem setAddr (imm : Byte) : Statement (.setAddr imm) := opcodeMask_encodeFields _ _
theorem setFc (imm : Byte) : Statement (.setFc imm) := opcodeMask_encodeFields _ _
theorem setPtr (imm : Byte) : Statement (.setPtr imm) := opcodeMask_encodeFields _ _
theorem bufWr (imm : Byte) : Statement (.bufWr imm) := opcodeMask_encodeFields _ _
theorem bufRd (imm : Byte) : Statement (.bufRd imm) := opcodeMask_encodeFields _ _
theorem encodeFrame (imm : Byte) : Statement (.encodeFrame imm) := opcodeMask_encodeFields _ _
theorem decodeFrame (imm : Byte) : Statement (.decodeFrame imm) := opcodeMask_encodeFields _ _
theorem rdReg (imm : Byte) : Statement (.rdReg imm) := opcodeMask_encodeFields _ _
theorem clrStatus (imm : Byte) : Statement (.clrStatus imm) := opcodeMask_encodeFields _ _
end OpcodeMask

end Sys2Proof.Laws
end

