-- ==== Sys2Proof/Laws/Step.lean ====
section
/-! SUPPORT. What a step can do, said once, and the run of a host's program one command at a time. -/

namespace Sys2Proof.Machine

theorem thenAdvanceHost_next {r : Result} {t : State} :
    thenAdvanceHost r = .next t ↔ ∃ u, r = .next u ∧ t = advanceHost u := by
  cases r <;> simp [thenAdvanceHost, @eq_comm State t]

/-- Every next state of a step: the block waited, was reset, or ran the command the host's word decodes to. -/
theorem step_next {s t : State} (h : step s = .next t) :
    (nextInput s = none ∧ t = s) ∨
    (∃ p, nextInput s = some (.reset p) ∧ t = advanceHost (applyReset p s)) ∨
    (∃ w u, nextInput s = some (.command w) ∧ execCommand (decodeWord w) s = .next u ∧ t = advanceHost u) := by
  unfold step at h
  cases hn : nextInput s with
  | none =>
    rw [hn] at h
    exact .inl ⟨rfl, by simpa [awaitCommand, eq_comm] using h⟩
  | some input =>
    rw [hn] at h
    obtain ⟨u, hu, rfl⟩ := thenAdvanceHost_next.1 h
    cases input with
    | reset p => exact .inr (.inl ⟨p, rfl, by obtain rfl : applyReset p s = u := by simpa [serve] using hu
                                              rfl⟩)
    | command w => exact .inr (.inr ⟨w, u, rfl, hu, rfl⟩)

/-- A step whose host input is a command word runs the command it decodes to. -/
theorem step_command {s : State} {w : Word} (h : nextInput s = some (.command w)) :
    step s = thenAdvanceHost (execCommand (decodeWord w) s) := by
  simp [step, h, serve]

/-- A run of steps, one after another, stopping at the first that has no next state. -/
theorem run_succ (n : Nat) (s : State) :
    Host.Core.run Sys2Proof.core (n + 1) s =
      match step s with
      | .next t => Host.Core.run Sys2Proof.core n t
      | .fault f => .fault f
      | .refused r => .refused r := by
  simp only [Host.Core.run, show Sys2Proof.core.step s = step s from rfl]
  cases step s <;> rfl

end Sys2Proof.Machine
end

