-- ==== Sys2Proof/Tests/Slice0.lean ====
section
/-! SUPPORT. Tests from the spec's own words, vectors and examples, the well-formedness smoke tests, and a witness for the
hypotheses of every statement that has some. -/

namespace Sys2Proof.Tests

open Sys2Proof.Machine

/-- FBUF holding these bytes from an address on. -/
def cells (a : Nat) : List Byte → Memory
  | [] => []
  | b :: bs => (a, b) :: cells (a + 1) bs

/-- The reset state with these bytes loaded at FBUF[0] and PTR past them, ADDR and FC set: what HDR and LOAD 0 leave. -/
def received (a f : Byte) (frame : List Byte) : State :=
  { State.reset with addr := a, fc := f, fbuf := cells 0 frame, ptr := BitVec.ofNat 9 frame.length }

/-- The reset state with this payload loaded at FBUF[2] and PTR past it, ADDR and FC set: what HDR and LOAD 2 leave. -/
def prepared (a f : Byte) (payload : List Byte) : State :=
  { State.reset with addr := a, fc := f, fbuf := cells 2 payload, ptr := BitVec.ofNat 9 (payload.length + 2) }

/-- The reset state with one host input to come. -/
def about (input : HostInput) : State := { State.reset with host := ⟨[input], 0⟩ }

/-- What a command leaves, seen through a test. -/
def leaves (r : Result) (p : State → Bool) : Bool :=
  match r with
  | .next t => p t
  | .fault _ => false
  | .refused _ => false

/-- Whether a command faults for this reason. -/
def faultsOn (r : Result) (f : Fault) : Bool :=
  match r with
  | .next _ => false
  | .fault g => g == f
  | .refused _ => false

/-- The state a command leaves, or the given one where it leaves none. -/
def left (r : Result) (s : State) : State :=
  match r with
  | .next t => t
  | .fault _ => s
  | .refused _ => s

/-! ### Well-formedness: each check refuses a term (R85, R84) -/

theorem test_wf_refuses_nop : (Instr.nop 0x01#8).wellFormed = false := by decide
theorem test_wf_refuses_crcInit : (Instr.crcInit 0x01#8).wellFormed = false := by decide
theorem test_wf_refuses_bufRd : (Instr.bufRd 0x80#8).wellFormed = false := by decide
theorem test_wf_refuses_encodeFrame : (Instr.encodeFrame 0x01#8).wellFormed = false := by decide
theorem test_wf_refuses_decodeFrame : (Instr.decodeFrame 0xFF#8).wellFormed = false := by decide
theorem test_wf_refuses_clrStatus : (Instr.clrStatus 0x01#8).wellFormed = false := by decide
theorem test_wf_refuses_reserved_with_a_table_opcode : (Command.reserved 0x22#8 0x00#8).wellFormed = false := by decide

/-! ### Decoding, from the words of 30_encoding.md R82 and the examples of 40 to 43 -/

theorem test_decode_nop : decodeWord 0b0000000000000000#16 = .instr (.nop 0x00#8) := by decide
theorem test_decode_crcInit : decodeWord 0b0000000100000000#16 = .instr (.crcInit 0x00#8) := by decide
theorem test_decode_crcByte : decodeWord 0b0000001000000001#16 = .instr (.crcByte 0x01#8) := by decide
theorem test_decode_setAddr : decodeWord 0b0001000000000001#16 = .instr (.setAddr 0x01#8) := by decide
theorem test_decode_setFc : decodeWord 0b0001000100000011#16 = .instr (.setFc 0x03#8) := by decide
theorem test_decode_setPtr : decodeWord 0b0010000000000010#16 = .instr (.setPtr 0x02#8) := by decide
theorem test_decode_bufWr : decodeWord 0b0010000110101010#16 = .instr (.bufWr 0xAA#8) := by decide
theorem test_decode_bufRd : decodeWord 0b0010001000000000#16 = .instr (.bufRd 0x00#8) := by decide
theorem test_decode_encodeFrame : decodeWord 0b0011000000000000#16 = .instr (.encodeFrame 0x00#8) := by decide
theorem test_decode_decodeFrame : decodeWord 0b0011000100000000#16 = .instr (.decodeFrame 0x00#8) := by decide
theorem test_decode_rdReg : decodeWord 0b0100000000001111#16 = .instr (.rdReg 0x0F#8) := by decide
theorem test_decode_clrStatus : decodeWord 0b0100000100000000#16 = .instr (.clrStatus 0x00#8) := by decide
/-- The first and last reserved opcodes of R84's five ranges. -/
theorem test_decode_reserved_edges :
    [0x03#8, 0x0F#8, 0x12#8, 0x1F#8, 0x23#8, 0x2F#8, 0x32#8, 0x3F#8, 0x42#8, 0xFF#8].all
      (fun op => decodeFields op 0x5A#8 == .reserved op 0x5A#8) = true := by decide
theorem test_table_word_is_the_port_word : decodeTableWord 16 0x2101 = some (.bufWr 0x01#8) := by decide
theorem test_table_word_reserved : decodeTableWord 16 0x0300 = none := by decide

/-! ### The assembler, from R90, R91 and the programs of 95_test_vectors.md -/

/-- P7's first line. -/
theorem test_assemble_setPtr : assembleLine "SET_PTR 255".toList = .ok [.setPtr 0xFF#8] := by decide
/-- P3's LOAD lines, with a comment. -/
theorem test_assemble_comment : assembleLine "BUF_WR 0x2A        ; CRC lo".toList = .ok [.bufWr 0x2A#8] := by decide
theorem test_assemble_load :
    assembleLine "LOAD 2, 1, 0x00, 2".toList = .ok [.setPtr 2#8, .bufWr 1#8, .bufWr 0#8, .bufWr 2#8] := by decide
theorem test_assemble_out_of_range : assembleLine "SET_ADDR 256".toList = .error .immOutOfRange := by decide
theorem test_assemble_no_operand : assembleLine "NOP 1".toList = .error .wrongOperands := by decide
theorem test_list_word : listWord 0x31F0#16 = "31F0".toList := by decide

/-! ### The CRC, from 95_test_vectors.md 2.1 -/

/-- V-C6, the check value of "123456789". -/
theorem test_crc_check_value :
    bodyCrc [0x31#8, 0x32#8, 0x33#8, 0x34#8, 0x35#8, 0x36#8, 0x37#8, 0x38#8, 0x39#8] = 0x4B37#16 := by decide +kernel
/-- V-B6. -/
theorem test_crc_byte_mixed : crc16Byte 0x1234#16 0x56#8 = 0xE993#16 := by decide +kernel
/-- V-C17: a body whose CRC is zero. -/
theorem test_crc_zero_body : bodyCrc [0xFF#8, 0xFF#8] = 0x0000#16 := by decide +kernel

/-! ### One step of each command, from 95_test_vectors.md 2.1 to 2.4 -/

/-- V-X1: a NOP with a non-zero IMM. -/
theorem test_step_nop :
    leaves (step (about (.command 0x00FF#16))) (fun t => t == advanceHost (about (.command 0x00FF#16))) = true := by decide
/-- V-K1. -/
theorem test_crcInit : leaves (exec (.crcInit 0x00#8) { State.reset with crc := 0x4B37#16 }) (fun t => t.crc == 0xFFFF#16) = true := by decide
/-- V-K2. -/
theorem test_crcByte : leaves (step (about (.command 0x0201#16))) (fun t => t.crc == 0x807E#16) = true := by decide +kernel
/-- V-L7. -/
theorem test_setAddr : leaves (step (about (.command 0x1001#16))) (fun t => t.addr == 0x01#8 && t.fc == 0x00#8) = true := by decide
theorem test_setFc : leaves (step (about (.command 0x1103#16))) (fun t => t.fc == 0x03#8 && t.addr == 0x00#8) = true := by decide
/-- V-L1. -/
theorem test_setPtr : leaves (step (about (.command 0x2002#16))) (fun t => t.ptr == 2#9 && !t.ovf) = true := by decide
/-- R121 in a build with FBUF_SIZE = 5: an index over it sets OVF and leaves PTR. -/
theorem test_setPtr_small_build :
    leaves (exec (.setPtr 0x06#8) { State.reset with fbufSize := 5, ptr := 3#9 }) (fun t => t.ptr == 3#9 && t.ovf) = true := by decide
/-- V-L2. -/
theorem test_bufWr :
    leaves (exec (.bufWr 0x01#8) { State.reset with ptr := 2#9 }) (fun t => t.fbuf == [(2, 0x01#8)] && t.ptr == 3#9) = true := by decide
/-- V-L4's last write: dropped at PTR = 256. -/
theorem test_bufWr_at_end :
    leaves (exec (.bufWr 0xBB#8) { State.reset with ptr := 256#9, fbuf := [(255, 0xAA#8)] })
      (fun t => t.fbuf == [(255, 0xAA#8)] && t.ptr == 256#9 && statusByte t == 0x40#8) = true := by decide
/-- V-L3. -/
theorem test_bufRd :
    leaves (exec (.bufRd 0x00#8) { received 0x00#8 0x00#8 [0x01#8] with ptr := 0#9 })
      (fun t => t.responses == [0x01#8] && t.ptr == 1#9) = true := by decide
/-- V-L6. -/
theorem test_bufRd_unwritten : faultsOn (exec (.bufRd 0x00#8) State.reset) (.fbufUnwritten 0) = true := by decide
/-- V-F1. -/
theorem test_encodeFrame :
    leaves (exec (.encodeFrame 0x00#8) (prepared 0x01#8 0x03#8 [0x01#8, 0x00#8, 0x00#8, 0x02#8]))
      (fun t => t.fbuf == cells 0 [0x01#8, 0x03#8, 0x01#8, 0x00#8, 0x00#8, 0x02#8, 0xC5#8, 0xF7#8] &&
        t.crc == 0xF7C5#16 && t.len == 8#9 && t.ptr == 0#9 && statusByte t == 0x00#8) = true := by decide +kernel
/-- V-F5d: PTR = 1. -/
theorem test_encodeFrame_length :
    leaves (exec (.encodeFrame 0x00#8) { State.reset with ptr := 1#9 })
      (fun t => t.fbuf == [] && t.ptr == 1#9 && t.crc == 0xFFFF#16 && statusByte t == 0x04#8) = true := by decide
/-- V-F10. -/
theorem test_decodeFrame_exception :
    leaves (exec (.decodeFrame 0x00#8) (received 0x01#8 0x03#8 [0x01#8, 0x83#8, 0x02#8, 0xC0#8, 0xF1#8]))
      (fun t => statusByte t == 0x0B#8 && t.exc == 0x02#8 && t.rxFc == 0x83#8 && t.rxCrc == 0xF1C0#16 && t.ptr == 2#9) = true := by
  decide +kernel
/-- V-F12: the late SHORT_FRAME. -/
theorem test_decodeFrame_late_short :
    leaves (exec (.decodeFrame 0x00#8) (received 0x01#8 0x83#8 [0x01#8, 0x83#8, 0x41#8, 0x81#8]))
      (fun t => statusByte t == 0x19#8 && t.exc == 0x00#8 && t.rxAddr == 0x01#8 && t.len == 4#9 && t.ptr == 4#9) = true := by
  decide +kernel
/-- V-X2. -/
theorem test_rdReg :
    leaves (exec (.rdReg 0x02#8) { State.reset with crc := 0x4B37#16 }) (fun t => t.responses == [0x4B#8]) = true := by decide
/-- V-X4. -/
theorem test_rdReg_reserved :
    leaves (exec (.rdReg 0x0F#8) State.reset) (fun t => t.responses == [0x00#8] && statusByte t == 0x80#8) = true := by decide
/-- V-X5. -/
theorem test_clrStatus :
    leaves (exec (.clrStatus 0x00#8) { State.reset with crc := 0x0000#16, ill := true, result := 2#3 })
      (fun t => statusByte t == 0x20#8) = true := by decide
/-- V-X7: a reserved command keeps RESULT. -/
theorem test_reserved :
    leaves (step { about (.command 0x0300#16) with result := 2#3 })
      (fun t => statusByte t == 0x82#8 && t.responses == []) = true := by decide
/-- R241: a reset while a command runs; its response byte is not delivered. -/
theorem test_reset_during_a_command :
    leaves (step { about (.reset (some 0x4000#16)) with crc := 0x1234#16, ill := true, responses := [0x05#8] })
      (fun t => t == { State.reset with host := ⟨[.reset (some 0x4000#16)], 1⟩ }) = true := by decide

/-! ### Witnesses: concrete inputs that meet the hypotheses of the statements -/

theorem witness_ResetGivesEveryResetValue :
    nextInput (about (.reset none)) = some (.reset none) ∧
    nextInput (about (.reset (some 0x3100#16))) = some (.reset (some 0x3100#16)) := by decide
theorem witness_ResetKeepsTheBuildAndTheHost :
    nextInput (about (.reset none)) = some (.reset none) ∧
    step (about (.reset none)) = .next (left (step (about (.reset none))) State.reset) := ⟨rfl, rfl⟩
theorem witness_StepRunsTheDecodedCommand :
    nextInput (about (.command 0x0201#16)) = some (.command 0x0201#16) ∧
    decodeWord 0x0201#16 = .instr (.crcByte 0x01#8) := by decide
/-- The same where `exec` faults: V-L6. -/
theorem witness_StepRunsTheDecodedCommand_fault :
    nextInput (about (.command 0x2200#16)) = some (.command 0x2200#16) ∧ decodeWord 0x2200#16 = .instr (.bufRd 0x00#8) ∧
    exec (.bufRd 0x00#8) (about (.command 0x2200#16)) = .fault (.fbufUnwritten 0) := ⟨rfl, by decide, rfl⟩
theorem witness_ReservedWordSetsIllAndNothingElse :
    nextInput (about (.command 0x0300#16)) = some (.command 0x0300#16) ∧
    reservedOpcode ((0x0300#16).extractLsb' 8 8) = true ∧ reservedOpcode ((0x42FF#16).extractLsb' 8 8) = true := by decide
theorem witness_BlockWaitsWithoutACommand : nextInput State.reset = none := by decide
theorem witness_FetchWordIsTakenNext : State.reset.HostInRange := by decide
theorem witness_ReservedExactlyOutsideTheMap :
    reservedOpcode ((0x0300#16).extractLsb' 8 8) = true ∧ reservedOpcode ((0x02FF#16).extractLsb' 8 8) = false := by decide
theorem witness_CommandWordsAndCommandsAgree :
    (Command.instr (.nop 0xFF#8)).wellFormed = true ∧ (Command.reserved 0x03#8 0xFF#8).wellFormed = true := by decide
theorem witness_IgnoredImmMakesNoDifference : (Instr.bufRd 0x00#8).ignoresImm = true := by decide
theorem witness_CrcInitSetsTheInitialValue : State.reset.crc = 0xFFFF#16 := by decide
theorem witness_SetPtrLoadsThePointerOrSetsOvf :
    ({ State.reset with fbufSize := 5 } : State).fbufSize < (0x06#8).toNat ∧
    (0x05#8).toNat ≤ ({ State.reset with fbufSize := 5 } : State).fbufSize ∧ 255 ≤ State.reset.fbufSize := by decide
theorem witness_BufWrStoresAtThePointer_at_end :
    Config.legalFbufSize State.reset.fbufSize ∧
    ({ State.reset with ptr := 256#9 } : State).ptr.toNat = ({ State.reset with ptr := 256#9 } : State).fbufSize := by decide
theorem witness_BufWrStoresAtThePointer_below :
    Config.legalFbufSize State.reset.fbufSize ∧
    ({ State.reset with ptr := 255#9 } : State).ptr.toNat < ({ State.reset with ptr := 255#9 } : State).fbufSize := by decide
theorem witness_BufRdAnswersTheByteAtThePointer_written :
    let s : State := { State.reset with ptr := 255#9, fbuf := [(255, 0xAA#8)] }
    Config.legalFbufSize s.fbufSize ∧ s.ptr.toNat < s.fbufSize ∧ memRead s (effectiveAddress s) = .ok 0xAA#8 :=
  ⟨by decide, by decide, rfl⟩
theorem witness_BufRdAnswersTheByteAtThePointer_unwritten :
    Config.legalFbufSize State.reset.fbufSize ∧ State.reset.ptr.toNat < State.reset.fbufSize ∧
    State.reset.isWritten State.reset.ptr.toNat = false := by decide
theorem witness_FbufReadsTheLastWrite : 255 < State.reset.fbufSize := by decide
theorem witness_LoadPlacesItsBytes :
    Config.legalFbufSize State.reset.fbufSize ∧
    (0x02#8).toNat + (List.replicate 254 0x00#8).length ≤ State.reset.fbufSize := by
  rw [List.length_replicate]; decide
theorem witness_EncodeOutsideItsBoundRecordsLength :
    ({ State.reset with ptr := 1#9 } : State).ptr.toNat < 2 ∧
    ({ State.reset with ptr := 255#9 } : State).fbufSize - 2 < ({ State.reset with ptr := 255#9 } : State).ptr.toNat := by decide
/-- The payload at both ends of its range: none, and FBUF_SIZE - 4 bytes in the smallest build that has two. -/
theorem witness_EncodeBuildsTheFrame :
    (let s := prepared 0x11#8 0x22#8 []
     Config.legalFbufSize s.fbufSize ∧ 2 ≤ s.ptr.toNat ∧ s.ptr.toNat ≤ s.fbufSize - 2 ∧
      ([] : List Byte).length = s.ptr.toNat - 2 ∧ s.Holds 2 []) ∧
    (let s := { prepared 0x11#8 0x22#8 [0xAB#8, 0xCD#8] with fbufSize := 6 }
     Config.legalFbufSize s.fbufSize ∧ 2 ≤ s.ptr.toNat ∧ s.ptr.toNat ≤ s.fbufSize - 2 ∧
      [0xAB#8, 0xCD#8].length = s.ptr.toNat - 2 ∧ s.Holds 2 [0xAB#8, 0xCD#8]) :=
  ⟨⟨by decide, by decide, by decide, by decide, (memReadRange_ok (n := 0)).1 rfl |>.2⟩,
    ⟨by decide, by decide, by decide, by decide, (memReadRange_ok (n := 2)).1 rfl |>.2⟩⟩
theorem witness_EncodeFaultsOnAnUnwrittenPayloadByte :
    let s : State := { State.reset with ptr := 3#9 }
    2 ≤ s.ptr.toNat ∧ s.ptr.toNat ≤ s.fbufSize - 2 ∧ ∃ a, 2 ≤ a ∧ a < s.ptr.toNat ∧ s.isWritten a = false :=
  ⟨by decide, by decide, 2, by decide, by decide, rfl⟩
theorem witness_DecodeOutcomes_short : ({ State.reset with ptr := 3#9 } : State).ptr.toNat < 4 := by decide

theorem witness_DecodeReadsExactlyTheFrame_next :
    exec (.decodeFrame 0x00#8) State.reset = .next { State.reset with result := 1#3 } := rfl

/-- A received frame is held at FBUF[0], and PTR is its length. -/
theorem holds_received_of_reads {a f : Byte} {frame : List Byte} (h : memReadRange (received a f frame) 0 frame.length = .ok frame) :
    (received a f frame).Holds 0 frame := (memReadRange_ok.1 h).2

/-- R153, row 2: V-F11, an exception response with a bad CRC. -/
theorem witness_DecodeOutcomes_mismatch :
    let frame := [0x01#8, 0x83#8, 0x02#8, 0xC0#8, 0xF0#8]
    let s := received 0x01#8 0x03#8 frame
    4 ≤ s.ptr.toNat ∧ frame.length = s.ptr.toNat ∧ s.Holds 0 frame ∧
      crc16 0xFFFF#16 (frame.take (s.ptr.toNat - 2)) ≠ frame.getD (s.ptr.toNat - 1) 0#8 ++ frame.getD (s.ptr.toNat - 2) 0#8 :=
  ⟨by decide, by decide, holds_received_of_reads rfl, by decide +kernel⟩
/-- R153, row 3, at L = 4: V-F12. -/
theorem witness_DecodeOutcomes_late_short :
    let frame := [0x01#8, 0x83#8, 0x41#8, 0x81#8]
    let s := received 0x01#8 0x83#8 frame
    4 ≤ s.ptr.toNat ∧ frame.length = s.ptr.toNat ∧ s.Holds 0 frame ∧
      crc16 0xFFFF#16 (frame.take (s.ptr.toNat - 2)) = frame.getD (s.ptr.toNat - 1) 0#8 ++ frame.getD (s.ptr.toNat - 2) 0#8 ∧
      (frame.getD 1 0#8).getLsbD 7 = true ∧ s.ptr.toNat = 4 :=
  ⟨by decide, by decide, holds_received_of_reads rfl, by decide +kernel, by decide, by decide⟩
/-- R153, row 4, at L = 5: V-F10. -/
theorem witness_DecodeOutcomes_exception :
    let frame := [0x01#8, 0x83#8, 0x02#8, 0xC0#8, 0xF1#8]
    let s := received 0x01#8 0x03#8 frame
    4 ≤ s.ptr.toNat ∧ frame.length = s.ptr.toNat ∧ s.Holds 0 frame ∧
      crc16 0xFFFF#16 (frame.take (s.ptr.toNat - 2)) = frame.getD (s.ptr.toNat - 1) 0#8 ++ frame.getD (s.ptr.toNat - 2) 0#8 ∧
      (frame.getD 1 0#8).getLsbD 7 = true ∧ 5 ≤ s.ptr.toNat :=
  ⟨by decide, by decide, holds_received_of_reads rfl, by decide +kernel, by decide, by decide⟩
/-- R153, row 5, at L = 4: V-F13. It meets the hypotheses of ResponseMatchesExactlyAValidMatchingFrame too. -/
theorem witness_DecodeOutcomes_ok :
    let frame := [0x11#8, 0x22#8, 0x8D#8, 0xF9#8]
    let s := received 0x11#8 0x22#8 frame
    4 ≤ s.ptr.toNat ∧ frame.length = s.ptr.toNat ∧ s.Holds 0 frame ∧
      crc16 0xFFFF#16 (frame.take (s.ptr.toNat - 2)) = frame.getD (s.ptr.toNat - 1) 0#8 ++ frame.getD (s.ptr.toNat - 2) 0#8 ∧
      (frame.getD 1 0#8).getLsbD 7 = false :=
  ⟨by decide, by decide, holds_received_of_reads rfl, by decide +kernel, by decide⟩
theorem witness_ResponseMatchesExactlyAValidMatchingFrame :
    let frame := [0x11#8, 0x22#8, 0x8D#8, 0xF9#8]
    4 ≤ (received 0x11#8 0x22#8 frame).ptr.toNat ∧ frame.length = (received 0x11#8 0x22#8 frame).ptr.toNat ∧
      (received 0x11#8 0x22#8 frame).Holds 0 frame ∧ frame.getD 3 0#8 ++ frame.getD 2 0#8 = crc16 0xFFFF#16 (frame.take 2) :=
  ⟨by decide, by decide, holds_received_of_reads rfl, by decide +kernel⟩
theorem witness_DecodeReadsExactlyTheFrame :
    let s : State := { State.reset with ptr := 4#9 }
    4 ≤ s.ptr.toNat ∧ s.ptr.toNat ≤ s.fbufSize ∧ ∃ a, a < s.ptr.toNat ∧ s.isWritten a = false :=
  ⟨by decide, by decide, 0, by decide, rfl⟩
theorem witness_DecodeReadsExactlyTheFrame_short : ({ State.reset with ptr := 3#9 } : State).ptr.toNat < 4 := by decide
/-- At L = 4, two FBUFs that differ at PTR itself: unwritten in the one, written in the other. -/
theorem witness_DecodeReadsExactlyTheFrame_past_pointer :
    let s := received 0x11#8 0x22#8 [0x11#8, 0x22#8, 0x8D#8, 0xF9#8]
    let fbuf : Memory := s.fbuf.setByte 4 0xFF#8
    4 ≤ s.ptr.toNat ∧ (∀ a, a < s.ptr.toNat → fbuf.byteAt a = s.fbuf.byteAt a) ∧
      fbuf.byteAt s.ptr.toNat ≠ s.fbuf.byteAt s.ptr.toNat := by decide
/-- The frame fills the smallest build: L = FBUF_SIZE = 5, so no byte at PTR exists. -/
theorem witness_DecodeReadsExactlyTheFrame_written :
    let s := { received 0x01#8 0x03#8 [0x01#8, 0x83#8, 0x02#8, 0xC0#8, 0xF1#8] with fbufSize := 5 }
    4 ≤ s.ptr.toNat ∧ s.ptr.toNat ≤ s.fbufSize ∧ s.WrittenRange 0 s.ptr.toNat := by decide

/-- What a command's outcome is, when it leaves a state that passes a test. -/
theorem next_left {r : Result} {s : State} {p : State → Bool} (h : leaves r p = true) : r = .next (left r s) := by
  cases r with
  | next t => rfl
  | fault f => simp [leaves] at h
  | refused q => simp [leaves] at h

theorem witness_ExceptionNeverMatchesANormalRequest :
    let s := received 0x01#8 0x03#8 [0x01#8, 0x83#8, 0x02#8, 0xC0#8, 0xF1#8]
    s.fc.getLsbD 7 = false ∧ exec (.decodeFrame 0x00#8) s = .next (left (exec (.decodeFrame 0x00#8) s) s) ∧
      (left (exec (.decodeFrame 0x00#8) s) s).result = 3#3 :=
  ⟨by decide, next_left test_decodeFrame_exception, by decide +kernel⟩
theorem witness_RdRegAnswersTheRegisterMap : 0x0F ≤ (0x0F#8).toNat := by decide
theorem witness_ClrStatusClearsTheStoredFields :
    ({ State.reset with crc := 0x0000#16 } : State).crc = 0x0000#16 ∧ State.reset.crc ≠ 0x0000#16 := by decide
/-- A NOP meets every clause's premise at once; its opcode is in no register's list. -/
theorem witness_OnlyTheListedWritersChangeARegister :
    (Command.instr (.nop 0x00#8)).wellFormed = true ∧
    execCommand (.instr (.nop 0x00#8)) State.reset = .next State.reset ∧
    (Command.instr (.nop 0x00#8)).opcode ∉ [0x01#8, 0x02#8, 0x10#8, 0x11#8, 0x20#8, 0x21#8, 0x22#8, 0x30#8, 0x31#8, 0x40#8, 0x41#8] ∧
    reservedOpcode (Command.instr (.nop 0x00#8)).opcode = false := ⟨rfl, rfl, by decide, by decide⟩
theorem witness_FbufChangesOnlyWhereStoredTo :
    execCommand (.instr (.bufWr 0x01#8)) State.reset = .next (advancePtr (storeByte 0 0x01#8 State.reset)) ∧
    memRead (advancePtr (storeByte 0 0x01#8 State.reset)) 0 ≠ memRead State.reset 0 := ⟨rfl, fun h => nomatch h⟩
theorem witness_OneResponseByteForEachRead :
    execCommand (.instr (.rdReg 0x03#8)) State.reset = .next (emit 0x00#8 State.reset) ∧
    (Command.instr (.rdReg 0x03#8)).opcode ∈ [0x22#8, 0x40#8] ∧
    execCommand (.reserved 0xFF#8 0x00#8) State.reset = .next (setIll State.reset) ∧
    (Command.reserved 0xFF#8 0x00#8).wellFormed = true ∧ (Command.reserved 0xFF#8 0x00#8).opcode ∉ [0x22#8, 0x40#8] :=
  ⟨rfl, by decide, rfl, by decide, by decide⟩
theorem witness_StickyFlagsAreSetAndClearedAsStated :
    execCommand (.instr (.nop 0x00#8)) (setIll (setOvf State.reset)) = .next (setIll (setOvf State.reset)) ∧
    (Command.instr (.nop 0x00#8)).opcode ≠ 0x41#8 ∧ (setIll (setOvf State.reset)).ovf = true ∧
    (setIll (setOvf State.reset)).ill = true ∧
    execCommand (.instr (.clrStatus 0x00#8)) (setIll (setOvf State.reset)) = .next (clearStatus (setIll (setOvf State.reset))) ∧
    (Command.instr (.clrStatus 0x00#8)).opcode = 0x41#8 ∧ State.reset.ovf = false ∧ State.reset.ill = false :=
  ⟨rfl, by decide, rfl, rfl, rfl, rfl, rfl, rfl⟩
theorem witness_ResultTakesOnlyTheFiveCodes :
    execCommand (.instr (.decodeFrame 0x00#8)) State.reset = .next { State.reset with result := 1#3 } ∧
    ({ State.reset with result := 1#3 } : State).result ≠ State.reset.result := ⟨rfl, by decide⟩
theorem witness_NoCommandIsSteeredByStatus :
    (setIll State.reset).eraseStatus = State.reset.eraseStatus ∧ setIll State.reset ≠ State.reset ∧
    Command.instr (.bufWr 0x01#8) ≠ .instr (.rdReg 0x00#8) := by decide
theorem witness_NoCommandReadsLen :
    ({ State.reset with len := 8#9 } : State).eraseLen = State.reset.eraseLen ∧
    ({ State.reset with len := 8#9 } : State) ≠ State.reset ∧ Command.instr (.nop 0x00#8) ≠ .instr (.rdReg 0x07#8) ∧
    Command.instr (.nop 0x00#8) ≠ .instr (.rdReg 0x08#8) := by decide
theorem witness_CommandsStopOnlyOnUnwrittenBytes :
    State.reset.Inv ∧ readsWritten (.instr (.decodeFrame 0x00#8)) State.reset ∧
    ¬ readsWritten (.instr (.bufRd 0x00#8)) State.reset :=
  ⟨by decide, fun h => absurd h (by decide), fun h => by rcases h with h | h <;> exact absurd h (by decide)⟩
theorem witness_PointerStaysInRange :
    Config.legalFbufSize (about (.command 0x21AA#16)).fbufSize ∧ (about (.command 0x21AA#16)).PtrInRange ∧
    step (about (.command 0x21AA#16)) =
      .next (advanceHost (advancePtr (storeByte 0 0xAA#8 (about (.command 0x21AA#16))))) :=
  ⟨by decide, by decide, rfl⟩
theorem witness_StepKeepsTheInvariant :
    (about (.command 0x21AA#16)).Inv ∧
    step (about (.command 0x21AA#16)) =
      .next (advanceHost (advancePtr (storeByte 0 0xAA#8 (about (.command 0x21AA#16))))) :=
  ⟨by decide, rfl⟩
theorem witness_ReadLenTransmitsTheEncodedFrame :
    Config.legalFbufSize State.reset.fbufSize ∧ (List.replicate 252 0x00#8).length + 4 ≤ State.reset.fbufSize := by
  rw [List.length_replicate]; decide
theorem witness_EncodeThenDecodeRoundTrip :
    Config.legalFbufSize State.reset.fbufSize ∧ (List.replicate 251 0x00#8).length + 4 ≤ State.reset.fbufSize ∧
    (List.replicate 251 0x00#8).length + 4 ≤ 255 ∧ (0x7F#8).getLsbD 7 = false := by
  rw [List.length_replicate]; decide
theorem witness_EncodeThenDecodeRoundTrip_exception :
    Config.legalFbufSize State.reset.fbufSize ∧ [0x02#8].length + 4 ≤ State.reset.fbufSize ∧ [0x02#8].length + 4 ≤ 255 ∧
    (0x80#8).getLsbD 7 = true ∧ 1 ≤ [0x02#8].length := by decide

/-- The frame of V-F5, built; and the same with its last byte replaced, PTR at its length. -/
def builtFrame : State := left (exec (.encodeFrame 0x00#8) (prepared 0x11#8 0x22#8 [])) State.reset
def corruptedFrame : State := { builtFrame with fbuf := builtFrame.fbuf.setByte 3 0xF8#8, ptr := builtFrame.len }

/-- V-F5's bytes. -/
theorem test_builtFrame_bytes : builtFrame.fbuf = cells 0 [0x11#8, 0x22#8, 0x8D#8, 0xF9#8] := by decide +kernel

theorem witness_SingleByteCorruptionIsDetected :
    Config.legalFbufSize (prepared 0x11#8 0x22#8 []).fbufSize ∧
    exec (.encodeFrame 0x00#8) (prepared 0x11#8 0x22#8 []) = .next builtFrame ∧ builtFrame.result = 0#3 ∧
    3 < builtFrame.len.toNat ∧ memRead builtFrame 3 = .ok 0xF9#8 ∧ 0xF8#8 ≠ 0xF9#8 ∧ corruptedFrame.ptr = builtFrame.len ∧
    (∀ k < builtFrame.len.toNat, memRead corruptedFrame k = if k = 3 then .ok 0xF8#8 else memRead builtFrame k) := by
  refine ⟨by decide, next_left (p := fun _ => true) (by decide +kernel), by decide +kernel, by decide +kernel,
    memRead_ok.2 ⟨by decide +kernel, by rw [test_builtFrame_bytes]; decide⟩, by decide, rfl, fun k _ => ?_⟩
  rw [show memRead corruptedFrame k = memRead (storeByte 3 0xF8#8 builtFrame) k from memRead_congr rfl rfl k,
    memRead_storeByte (by decide +kernel)]
  simp only [@eq_comm Nat k]

end Sys2Proof.Tests
end

/-! ## Outcomes

What every command can leave, said once, with one case per outcome the spec gives it; and what each register
keeps under the commands that are not among its writers (spec/10_state.md R22). -/

namespace Sys2Proof

/-- No row of the table has a reserved opcode (spec/30_encoding.md R84). -/
@[simp] theorem reservedOpcode_opcode (i : Instr) : reservedOpcode i.opcode = false := by
  cases i <;> rfl

/-- A reserved opcode is none of the table's. -/
theorem notMem_of_reservedOpcode {op : Byte} {ops : List Byte} (h : reservedOpcode op = true)
    (hops : ∀ o ∈ ops, reservedOpcode o = false) : op ∉ ops := by
  intro hmem
  rw [hops op hmem] at h
  cases h

/-- The decoder gives every command of the table back from its own word. -/
@[simp] theorem decodeWord_encode (i : Instr) : decodeWord (encode i) = .instr i := by
  cases i with
  | nop imm => exact Laws.DecodeEncode.nop imm
  | crcInit imm => exact Laws.DecodeEncode.crcInit imm
  | crcByte imm => exact Laws.DecodeEncode.crcByte imm
  | setAddr imm => exact Laws.DecodeEncode.setAddr imm
  | setFc imm => exact Laws.DecodeEncode.setFc imm
  | setPtr imm => exact Laws.DecodeEncode.setPtr imm
  | bufWr imm => exact Laws.DecodeEncode.bufWr imm
  | bufRd imm => exact Laws.DecodeEncode.bufRd imm
  | encodeFrame imm => exact Laws.DecodeEncode.encodeFrame imm
  | decodeFrame imm => exact Laws.DecodeEncode.decodeFrame imm
  | rdReg imm => exact Laws.DecodeEncode.rdReg imm
  | clrStatus imm => exact Laws.DecodeEncode.clrStatus imm

end Sys2Proof

namespace Sys2Proof.Machine

/-- The state DECODE leaves on a frame of 4 bytes or more with this body and trailing CRC, where the CRC is valid, before its
outcome is recorded (spec/42_frame.md R150, R152). -/
def withReceived (body : List Byte) (s : State) : State :=
  { s with
    len := s.ptr, crc := bodyCrc body, rxCrc := bodyCrc body, rxAddr := body.getD 0 0#8, rxFc := body.getD 1 0#8
    addrMatch := body.getD 0 0#8 == s.addr, fcMatch := body.getD 1 0#8 == s.fc }

@[simp] theorem withReceived_fbufSize (body : List Byte) (s : State) : (withReceived body s).fbufSize = s.fbufSize := rfl
@[simp] theorem withReceived_crc (body : List Byte) (s : State) : (withReceived body s).crc = bodyCrc body := rfl
@[simp] theorem withReceived_addr (body : List Byte) (s : State) : (withReceived body s).addr = s.addr := rfl
@[simp] theorem withReceived_fc (body : List Byte) (s : State) : (withReceived body s).fc = s.fc := rfl
@[simp] theorem withReceived_ptr (body : List Byte) (s : State) : (withReceived body s).ptr = s.ptr := rfl
@[simp] theorem withReceived_len (body : List Byte) (s : State) : (withReceived body s).len = s.ptr := rfl
@[simp] theorem withReceived_rxAddr (body : List Byte) (s : State) : (withReceived body s).rxAddr = body.getD 0 0#8 := rfl
@[simp] theorem withReceived_rxFc (body : List Byte) (s : State) : (withReceived body s).rxFc = body.getD 1 0#8 := rfl
@[simp] theorem withReceived_exc (body : List Byte) (s : State) : (withReceived body s).exc = s.exc := rfl
@[simp] theorem withReceived_rxCrc (body : List Byte) (s : State) : (withReceived body s).rxCrc = bodyCrc body := rfl
@[simp] theorem withReceived_result (body : List Byte) (s : State) : (withReceived body s).result = s.result := rfl
@[simp] theorem withReceived_addrMatch (body : List Byte) (s : State) : (withReceived body s).addrMatch =
    (body.getD 0 0#8 == s.addr) := rfl
@[simp] theorem withReceived_fcMatch (body : List Byte) (s : State) : (withReceived body s).fcMatch =
    (body.getD 1 0#8 == s.fc) := rfl
@[simp] theorem withReceived_ovf (body : List Byte) (s : State) : (withReceived body s).ovf = s.ovf := rfl
@[simp] theorem withReceived_ill (body : List Byte) (s : State) : (withReceived body s).ill = s.ill := rfl
@[simp] theorem withReceived_fbuf (body : List Byte) (s : State) : (withReceived body s).fbuf = s.fbuf := rfl
@[simp] theorem withReceived_responses (body : List Byte) (s : State) : (withReceived body s).responses = s.responses := rfl
@[simp] theorem withReceived_host (body : List Byte) (s : State) : (withReceived body s).host = s.host := rfl

/-- What a command can leave of a state: one case per outcome of each command, with the condition it comes under. -/
inductive Leaves (s : State) : Command → State → Prop where
  | nop (imm : Byte) : Leaves s (.instr (.nop imm)) s
  | crcInit (imm : Byte) : Leaves s (.instr (.crcInit imm)) { s with crc := Config.crcInitial }
  | crcByte (imm : Byte) : Leaves s (.instr (.crcByte imm)) { s with crc := crc16Byte s.crc imm }
  | setAddr (imm : Byte) : Leaves s (.instr (.setAddr imm)) { s with addr := imm }
  | setFc (imm : Byte) : Leaves s (.instr (.setFc imm)) { s with fc := imm }
  | setPtr (imm : Byte) (hle : imm.toNat ≤ s.fbufSize) : Leaves s (.instr (.setPtr imm)) { s with ptr := indexOperand imm }
  | setPtrOver (imm : Byte) (hover : s.fbufSize < imm.toNat) : Leaves s (.instr (.setPtr imm)) (setOvf s)
  | bufWr (imm : Byte) (hlt : s.ptr.toNat < s.fbufSize) :
      Leaves s (.instr (.bufWr imm)) (advancePtr (storeByte s.ptr.toNat imm s))
  | bufWrAtEnd (imm : Byte) (hend : s.ptr.toNat = s.fbufSize) : Leaves s (.instr (.bufWr imm)) (setOvf s)
  | bufRd (imm v : Byte) (hlt : s.ptr.toNat < s.fbufSize) (hread : memRead s s.ptr.toNat = .ok v) :
      Leaves s (.instr (.bufRd imm)) (advancePtr (emit v s))
  | bufRdAtEnd (imm : Byte) (hend : s.ptr.toNat = s.fbufSize) : Leaves s (.instr (.bufRd imm)) (emit 0x00#8 (setOvf s))
  | encodeFrame (imm : Byte) (body : List Byte) (hbound : encodeInBounds s = true) :
      Leaves s (.instr (.encodeFrame imm)) (withFrame body s)
  | encodeOutside (imm : Byte) :
      Leaves s (.instr (.encodeFrame imm)) (setMatch false false (setResult resultLength s))
  | decodeShort (imm : Byte) :
      Leaves s (.instr (.decodeFrame imm)) (setMatch false false (setResult resultShortFrame { s with len := s.ptr }))
  | decodeMismatch (imm : Byte) (body : List Byte) (rx : Word) :
      Leaves s (.instr (.decodeFrame imm)) (setMatch false false (setResult resultCrcMismatch
        { s with len := s.ptr, crc := bodyCrc body, rxCrc := rx }))
  | decodeLateShort (imm : Byte) (body : List Byte) :
      Leaves s (.instr (.decodeFrame imm)) (setResult resultShortFrame (withReceived body s))
  | decodeException (imm : Byte) (body : List Byte) (h7 : (body.getD 1 0#8).getLsbD 7 = true) :
      Leaves s (.instr (.decodeFrame imm))
        { setResult resultException (withReceived body s) with exc := body.getD 2 0#8, ptr := 2#9 }
  | decodeOk (imm : Byte) (body : List Byte) :
      Leaves s (.instr (.decodeFrame imm)) { setResult resultOk (withReceived body s) with ptr := 2#9 }
  | rdReg (imm v : Byte) (hmapped : imm.toNat < 0x0F) (hread : regByte s imm = some v) :
      Leaves s (.instr (.rdReg imm)) (emit v s)
  | rdRegReserved (imm : Byte) (hindex : 0x0F ≤ imm.toNat) :
      Leaves s (.instr (.rdReg imm)) (emit 0x00#8 (setIll s))
  | clrStatus (imm : Byte) : Leaves s (.instr (.clrStatus imm)) (clearStatus s)
  | reserved (op imm : Byte) : Leaves s (.reserved op imm) (setIll s)

theorem leaves_of_execSetPtr {imm : Byte} {s t : State} (h : execSetPtr imm s = .next t) :
    Leaves s (.instr (.setPtr imm)) t := by
  rw [execSetPtr_eq] at h
  split at h
  · next hover => cases h; exact .setPtrOver imm hover
  · next hle => cases h; exact .setPtr imm (Nat.le_of_not_lt hle)

theorem leaves_of_execBufWr {imm : Byte} {s t : State} (h : execBufWr imm s = .next t) :
    Leaves s (.instr (.bufWr imm)) t := by
  obtain ⟨hend, rfl⟩ | ⟨hlt, rfl⟩ := execBufWr_next.1 h
  · exact .bufWrAtEnd imm hend
  · exact .bufWr imm hlt

theorem leaves_of_execBufRd {imm : Byte} {s t : State} (h : execBufRd imm s = .next t) :
    Leaves s (.instr (.bufRd imm)) t := by
  obtain ⟨hend, rfl⟩ | ⟨-, v, hread, rfl⟩ := (execBufRd_next imm).1 h
  · exact .bufRdAtEnd imm hend
  · exact .bufRd imm v (memRead_ok.1 hread).1 hread

theorem leaves_of_execEncodeFrame {imm : Byte} {s t : State} (h : execEncodeFrame imm s = .next t) :
    Leaves s (.instr (.encodeFrame imm)) t := by
  obtain ⟨-, rfl⟩ | ⟨hbound, body, -, rfl⟩ := (execEncodeFrame_next imm).1 h
  · exact .encodeOutside imm
  · exact .encodeFrame imm body hbound

/-- DECODE's check of a frame of 4 bytes or more ends in one of the last four rows of spec/42_frame.md R153. -/
theorem leaves_checkFrame (imm : Byte) (body : List Byte) (rx : Word) (l : Nat) (s : State) :
    Leaves s (.instr (.decodeFrame imm)) (checkFrame body rx l { s with len := s.ptr }) := by
  obtain ⟨-, heq⟩ | ⟨rfl, heq⟩ := checkFrame_cases body rx l { s with len := s.ptr }
  · rw [heq]
    exact .decodeMismatch imm body rx
  · rw [heq]
    obtain ⟨-, -, haccept⟩ | ⟨h7, -, haccept⟩ | ⟨-, haccept⟩ := acceptFrame_cases body l (withReceived body s)
    · exact haccept ▸ .decodeLateShort imm body
    · exact haccept ▸ .decodeException imm body h7
    · exact haccept ▸ .decodeOk imm body

theorem leaves_of_execDecodeFrame {imm : Byte} {s t : State} (h : execDecodeFrame imm s = .next t) :
    Leaves s (.instr (.decodeFrame imm)) t := by
  obtain ⟨-, rfl⟩ | ⟨-, body, rx, -, -, rfl⟩ := (execDecodeFrame_next imm).1 h
  · exact .decodeShort imm
  · exact leaves_checkFrame imm body rx s.ptr.toNat s

theorem leaves_of_execRdReg {imm : Byte} {s t : State} (h : execRdReg imm s = .next t) :
    Leaves s (.instr (.rdReg imm)) t := by
  rw [execRdReg_eq] at h
  cases hreg : regByte s imm with
  | some v =>
    have hmapped : imm.toNat < 0x0F := by
      by_contra hge
      rw [regByte_eq_none.2 (Nat.le_of_not_lt hge)] at hreg
      cases hreg
    rw [hreg] at h
    cases h
    exact .rdReg imm v hmapped hreg
  | none =>
    rw [hreg] at h
    cases h
    exact .rdRegReserved imm (regByte_eq_none.1 hreg)

/-- Every next state of a command is one of its listed outcomes. -/
theorem leaves_of_execCommand {c : Command} {s t : State} (h : execCommand c s = .next t) : Leaves s c t := by
  cases c with
  | reserved op imm => cases h; exact .reserved op imm
  | instr i =>
    cases i with
    | nop imm => cases h; exact .nop imm
    | crcInit imm => cases h; exact .crcInit imm
    | crcByte imm => cases h; exact .crcByte imm
    | setAddr imm => cases h; exact .setAddr imm
    | setFc imm => cases h; exact .setFc imm
    | setPtr imm => exact leaves_of_execSetPtr h
    | bufWr imm => exact leaves_of_execBufWr h
    | bufRd imm => exact leaves_of_execBufRd h
    | encodeFrame imm => exact leaves_of_execEncodeFrame h
    | decodeFrame imm => exact leaves_of_execDecodeFrame h
    | rdReg imm => exact leaves_of_execRdReg h
    | clrStatus imm => cases h; exact .clrStatus imm

/-! ### What each register keeps -/

section Frame

variable {s t : State} {c : Command}

/-- No command changes the build or the host's side. -/
theorem Leaves.fbufSize_eq (h : Leaves s c t) : t.fbufSize = s.fbufSize := by
  cases h <;> simp

theorem Leaves.host_eq (h : Leaves s c t) : t.host = s.host := by
  cases h <;> simp

theorem Leaves.crc_eq (h : Leaves s c t) (hop : c.opcode ∉ [0x01#8, 0x02#8, 0x30#8, 0x31#8]) : t.crc = s.crc := by
  cases h with
  | crcInit | crcByte | encodeFrame | decodeMismatch | decodeLateShort | decodeException | decodeOk =>
    simp [Command.opcode, Instr.opcode] at hop
  | _ => simp

theorem Leaves.addr_eq (h : Leaves s c t) (hop : c.opcode ≠ 0x10#8) : t.addr = s.addr := by
  cases h with
  | setAddr => exact absurd rfl hop
  | _ => simp

theorem Leaves.fc_eq (h : Leaves s c t) (hop : c.opcode ≠ 0x11#8) : t.fc = s.fc := by
  cases h with
  | setFc => exact absurd rfl hop
  | _ => simp

theorem Leaves.ptr_eq (h : Leaves s c t) (hop : c.opcode ∉ [0x20#8, 0x21#8, 0x22#8, 0x30#8, 0x31#8]) : t.ptr = s.ptr := by
  cases h with
  | setPtr | bufWr | bufRd | encodeFrame | decodeException | decodeOk => simp [Command.opcode, Instr.opcode] at hop
  | _ => simp

theorem Leaves.len_eq (h : Leaves s c t) (hop : c.opcode ∉ [0x30#8, 0x31#8]) : t.len = s.len := by
  cases h with
  | encodeFrame | decodeShort | decodeMismatch | decodeLateShort | decodeException | decodeOk =>
    simp [Command.opcode, Instr.opcode] at hop
  | _ => simp

/-- The receive registers are DECODE's alone. -/
theorem Leaves.receive_eq (h : Leaves s c t) (hop : c.opcode ≠ 0x31#8) :
    t.rxAddr = s.rxAddr ∧ t.rxFc = s.rxFc ∧ t.exc = s.exc ∧ t.rxCrc = s.rxCrc := by
  cases h with
  | decodeMismatch | decodeLateShort | decodeException | decodeOk => exact absurd rfl hop
  | _ => simp

/-- The frame results in STATUS. -/
theorem Leaves.frameStatus_eq (h : Leaves s c t) (hop : c.opcode ∉ [0x30#8, 0x31#8, 0x41#8]) :
    t.result = s.result ∧ t.addrMatch = s.addrMatch ∧ t.fcMatch = s.fcMatch := by
  cases h with
  | encodeFrame | encodeOutside | decodeShort | decodeMismatch | decodeLateShort | decodeException | decodeOk | clrStatus =>
    simp [Command.opcode, Instr.opcode] at hop
  | _ => exact ⟨rfl, rfl, rfl⟩

theorem Leaves.ovf_eq (h : Leaves s c t) (hop : c.opcode ∉ [0x20#8, 0x21#8, 0x22#8, 0x41#8]) : t.ovf = s.ovf := by
  cases h with
  | setPtrOver | bufWrAtEnd | bufRdAtEnd | clrStatus => simp [Command.opcode, Instr.opcode] at hop
  | _ => simp

theorem Leaves.ill_eq (h : Leaves s c t) (hwf : c.wellFormed = true) (hrd : c.opcode ≠ 0x40#8) (hclr : c.opcode ≠ 0x41#8)
    (hres : reservedOpcode c.opcode = false) : t.ill = s.ill := by
  cases h with
  | rdRegReserved => exact absurd rfl hrd
  | clrStatus => exact absurd rfl hclr
  | reserved op imm =>
    have hop : reservedOpcode op = true := hwf
    exact absurd hop (Bool.eq_false_iff.1 hres)
  | _ => simp

theorem Leaves.fbuf_eq (h : Leaves s c t) (hop : c.opcode ∉ [0x21#8, 0x30#8]) : t.fbuf = s.fbuf := by
  cases h with
  | bufWr | encodeFrame => simp [Command.opcode, Instr.opcode] at hop
  | _ => simp

/-- Only RD_REG and BUF_RD emit. -/
theorem Leaves.responses_eq (h : Leaves s c t) (hop : c.opcode ∉ [0x22#8, 0x40#8]) : t.responses = s.responses := by
  cases h with
  | bufRd | bufRdAtEnd | rdReg | rdRegReserved => simp [Command.opcode, Instr.opcode] at hop
  | _ => simp

/-- RD_REG and BUF_RD emit one byte each, on every path (spec/10_state.md R44). -/
theorem Leaves.responses_append (h : Leaves s c t) (hwf : c.wellFormed = true) (hop : c.opcode ∈ [0x22#8, 0x40#8]) :
    ∃ v, t.responses = s.responses ++ [v] := by
  cases h with
  | bufRd | bufRdAtEnd | rdReg | rdRegReserved => exact ⟨_, rfl⟩
  | reserved op imm => exact absurd hop (notMem_of_reservedOpcode hwf (by decide))
  | _ => simp [Command.opcode, Instr.opcode] at hop

/-- RESULT is kept or set to one of the codes 0 to 4 (spec/10_state.md R31). -/
theorem Leaves.result_kept_or_legal (h : Leaves s c t) : t.result = s.result ∨ t.ResultLegal := by
  cases h with
  | encodeFrame | encodeOutside | decodeShort | decodeMismatch | decodeLateShort | decodeException | decodeOk | clrStatus =>
    exact .inr (by simp [resultLength, resultShortFrame, resultCrcMismatch, resultException, resultOk])
  | _ => exact .inl rfl

/-- OVF after a command other than CLR_STATUS: set before, or set by one of R35's three cases. -/
theorem Leaves.ovf_iff (h : Leaves s c t) (hwf : c.wellFormed = true) (hop : c.opcode ≠ 0x41#8) :
    t.ovf = true ↔ s.ovf = true ∨ (c.opcode ∈ [0x21#8, 0x22#8] ∧ s.ptr.toNat = s.fbufSize) ∨
      ∃ imm, c = .instr (.setPtr imm) ∧ s.fbufSize < imm.toNat := by
  cases h with
  | setPtrOver imm hover => simpa [Command.opcode, Instr.opcode] using .inr hover
  | bufWrAtEnd imm hend | bufRdAtEnd imm hend => simp [Command.opcode, Instr.opcode, hend]
  | setPtr imm hle => simp [Command.opcode, Instr.opcode, hle]
  | bufWr imm hlt | bufRd imm v hlt => simp [Command.opcode, Instr.opcode, hlt.ne]
  | clrStatus => exact absurd rfl hop
  | reserved op imm =>
    have hnot : op ∉ [0x21#8, 0x22#8] := notMem_of_reservedOpcode hwf (by decide)
    simp only [setIll_ovf, Command.opcode, hnot]
    simp
  | _ => simp [Command.opcode, Instr.opcode]

/-- ILL after a command other than CLR_STATUS: set before, or set by one of R36's two cases. -/
theorem Leaves.ill_iff (h : Leaves s c t) (hwf : c.wellFormed = true) (hop : c.opcode ≠ 0x41#8) :
    t.ill = true ↔ s.ill = true ∨ reservedOpcode c.opcode = true ∨
      ∃ imm, c = .instr (.rdReg imm) ∧ 0x0F ≤ imm.toNat := by
  cases h with
  | rdReg imm v hmapped => simp [Command.opcode, hmapped]
  | rdRegReserved imm hindex => simp [hindex]
  | clrStatus => exact absurd rfl hop
  | reserved op imm =>
    have hres : reservedOpcode op = true := hwf
    simp [Command.opcode, hres]
  | _ => simp [Command.opcode]

/-- CLR_STATUS clears both sticky flags. -/
theorem Leaves.flags_cleared (h : Leaves s c t) (hwf : c.wellFormed = true) (hop : c.opcode = 0x41#8) :
    t.ovf = false ∧ t.ill = false := by
  cases h with
  | clrStatus => exact ⟨rfl, rfl⟩
  | reserved op imm => exact absurd (List.mem_singleton.2 hop) (notMem_of_reservedOpcode hwf (by decide))
  | _ => simp [Command.opcode, Instr.opcode] at hop

end Frame

end Sys2Proof.Machine

/-! ## The invariant

The invariant of reachable states, part by part (spec/10_state.md R26, R27, R31, spec/20_memory.md R63,
spec/41_buffer.md R126). -/

namespace Sys2Proof.Machine

section Parts

variable {s t : State} {c : Command}

/-- A post-increment below FBUF_SIZE does not wrap. -/
theorem ptr_succ_toNat (hsize : s.fbufSize ≤ 256) (hlt : s.ptr.toNat < s.fbufSize) :
    (s.ptr + 1#9).toNat = s.ptr.toNat + 1 := by
  rw [BitVec.toNat_add, show (1#9).toNat = 1 from rfl]
  omega

/-- ENCODE's length P + 2 does not wrap within its bound. -/
theorem ptr_add_two_toNat (hsize : s.fbufSize ≤ 256) (hbound : encodeInBounds s = true) :
    (s.ptr + 2#9).toNat = s.ptr.toNat + 2 := by
  rw [encodeInBounds_iff] at hbound
  rw [BitVec.toNat_add, show (2#9).toNat = 2 from rfl]
  omega

theorem Leaves.ptrInRange (h : Leaves s c t) (hlegal : Config.legalFbufSize s.fbufSize) (hptr : s.PtrInRange) :
    t.PtrInRange := by
  obtain ⟨hmin, hmax⟩ := hlegal
  cases h with
  | setPtr imm hle => simpa [State.PtrInRange, indexOperand_toNat] using hle
  | bufWr imm hlt | bufRd imm v hlt =>
    have hsucc := ptr_succ_toNat hmax hlt
    simp only [State.PtrInRange, advancePtr_ptr, advancePtr_fbufSize, storeByte_ptr, storeByte_fbufSize, emit_ptr,
      emit_fbufSize, hsucc]
    omega
  | encodeFrame => simp
  | decodeException | decodeOk =>
    have htwo : 2 ≤ s.fbufSize := by omega
    simpa using htwo
  | _ => simpa using hptr

theorem Leaves.lenInRange (h : Leaves s c t) (hlegal : Config.legalFbufSize s.fbufSize) (hptr : s.PtrInRange)
    (hlen : s.LenInRange) : t.LenInRange := by
  obtain ⟨hmin, hmax⟩ := hlegal
  cases h with
  | encodeFrame imm body hbound =>
    have hadd := ptr_add_two_toNat hmax hbound
    rw [encodeInBounds_iff] at hbound
    simp only [State.LenInRange, withFrame_len, withFrame_fbufSize, hadd]
    omega
  | decodeShort | decodeMismatch | decodeLateShort | decodeException | decodeOk => simpa using hptr
  | _ => simpa using hlen

theorem Leaves.resultLegal (h : Leaves s c t) (hresult : s.ResultLegal) : t.ResultLegal := by
  obtain hkept | hlegal := h.result_kept_or_legal
  · simpa [State.ResultLegal, hkept] using hresult
  · exact hlegal

theorem withFrame_fbuf (body : List Byte) (s : State) :
    (withFrame body s).fbuf =
      (storeByte (s.ptr.toNat + 1) (highByte (bodyCrc body)) (storeByte s.ptr.toNat (lowByte (bodyCrc body))
        (storeByte 1 s.fc (storeByte 0 s.addr s)))).fbuf := rfl

theorem Leaves.fbuf_wf (h : Leaves s c t) (hwf : s.fbuf.wf) : t.fbuf.wf := by
  cases h with
  | bufWr imm => exact Memory.wf_setByte hwf _ _
  | encodeFrame imm body =>
    rw [withFrame_fbuf]
    exact Memory.wf_setByte (Memory.wf_setByte (Memory.wf_setByte (Memory.wf_setByte hwf _ _) _ _) _ _) _ _
  | _ => simpa using hwf

/-- A store below FBUF_SIZE writes no address outside FBUF. -/
theorem storeByte_fbufInRange {a : Nat} (v : Byte) (hs : s.FbufInRange) (ha : a < s.fbufSize) :
    (storeByte a v s).FbufInRange := by
  intro cell hcell
  obtain rfl | hold := Memory.mem_setByte hcell
  · exact ha
  · exact hs cell hold

theorem withFrame_fbufInRange (body : List Byte) (hs : s.FbufInRange) (hbound : encodeInBounds s = true) :
    (withFrame body s).FbufInRange := by
  rw [encodeInBounds_iff] at hbound
  rw [State.FbufInRange, withFrame_fbuf]
  have header : (storeByte 1 s.fc (storeByte 0 s.addr s)).FbufInRange :=
    storeByte_fbufInRange _ (storeByte_fbufInRange _ hs (by omega)) (by rw [storeByte_fbufSize]; omega)
  exact storeByte_fbufInRange _ (storeByte_fbufInRange _ header (by simp only [storeByte_fbufSize]; omega))
    (by simp only [storeByte_fbufSize]; omega)

theorem Leaves.fbufInRange (h : Leaves s c t) (hs : s.FbufInRange) : t.FbufInRange := by
  cases h with
  | bufWr imm hlt => exact storeByte_fbufInRange imm hs hlt
  | encodeFrame imm body hbound => exact withFrame_fbufInRange body hs hbound
  | _ => exact hs

/-- Every command keeps the invariant. -/
theorem Leaves.keeps_inv (h : Leaves s c t) (hinv : s.Inv) : t.Inv := by
  obtain ⟨hlegal, hptr, hlen, hresult, hwf, hfbuf, hhost⟩ := hinv
  refine ⟨?_, h.ptrInRange hlegal hptr, h.lenInRange hlegal hptr hlen, h.resultLegal hresult, h.fbuf_wf hwf,
    h.fbufInRange hfbuf, ?_⟩
  · rw [h.fbufSize_eq]
    exact hlegal
  · rw [State.HostInRange, h.host_eq]
    exact hhost

/-- A reset answers a state of the invariant on every legal build. -/
theorem resetWith_inv {size : Nat} {host : HostSide} (hlegal : Config.legalFbufSize size)
    (hhost : host.index ≤ host.program.length) : (State.resetWith size host).Inv :=
  ⟨hlegal, Nat.zero_le _, Nat.zero_le _, Nat.zero_le _, List.Pairwise.nil, List.forall_mem_nil _, hhost⟩

/-- Taking an input that is there keeps the invariant: the index stays in the list. -/
theorem advanceHost_inv (hinv : s.Inv) (hnext : s.host.index < s.host.program.length) : (advanceHost s).Inv := by
  obtain ⟨hlegal, hptr, hlen, hresult, hwf, hfbuf, -⟩ := hinv
  exact ⟨hlegal, hptr, hlen, hresult, hwf, hfbuf, hnext⟩

theorem index_lt_of_nextInput {input : HostInput} (h : nextInput s = some input) :
    s.host.index < s.host.program.length := (List.getElem?_eq_some_iff.1 h).1

end Parts

/-- Settles O48: the block waits, is reset or runs one command, and each keeps the invariant. -/
theorem stepKeepsTheInvariant : Obligations.StepKeepsTheInvariant := by
  intro s t hinv hstep
  obtain ⟨-, rfl⟩ | ⟨p, hnext, rfl⟩ | ⟨w, u, hnext, hexec, rfl⟩ := step_next hstep
  · exact hinv
  · obtain ⟨hlegal, -, -, -, -, -, hhost⟩ := hinv
    exact advanceHost_inv (resetWith_inv hlegal hhost) (index_lt_of_nextInput hnext)
  · have hleaves := leaves_of_execCommand hexec
    refine advanceHost_inv (hleaves.keeps_inv hinv) ?_
    rw [hleaves.host_eq]
    exact index_lt_of_nextInput hnext

end Sys2Proof.Machine

/-! ## Registers

The statements about single registers: who writes them, what they hold, what is emitted (spec/10_state.md). -/

namespace Sys2Proof.Machine

/-- Settles O33: DECODE compares the received function code, whose bit 7 is set, with FC, whose bit 7 is not. -/
theorem exceptionNeverMatchesANormalRequest : Obligations.ExceptionNeverMatchesANormalRequest := by
  intro imm s t hfc hexec hresult
  have hleaves : Leaves s (.instr (.decodeFrame imm)) t := leaves_of_execCommand hexec
  cases hleaves with
  | decodeException _ body h7 =>
    have hne : body.getD 1 0#8 ≠ s.fc := by
      intro heq
      rw [heq, hfc] at h7
      cases h7
    simpa using hne
  | decodeShort | decodeMismatch | decodeLateShort | decodeOk =>
    simp [resultShortFrame, resultCrcMismatch, resultOk] at hresult

/-- Settles O39: each clause is the register's own frame law. -/
theorem onlyTheListedWritersChangeARegister : Obligations.OnlyTheListedWritersChangeARegister := by
  intro c s t hwf hexec
  have h := leaves_of_execCommand hexec
  exact ⟨h.crc_eq, h.addr_eq, h.fc_eq, h.ptr_eq, h.len_eq, h.receive_eq, h.frameStatus_eq, h.ovf_eq, h.ill_eq hwf,
    h.fbuf_eq, h.fbufSize_eq, h.host_eq⟩

/-- Settles O41, by the outcomes that emit. -/
theorem oneResponseByteForEachRead : Obligations.OneResponseByteForEachRead := by
  intro c s t hwf hexec
  have h := leaves_of_execCommand hexec
  exact ⟨h.responses_append hwf, h.responses_eq⟩

/-- Settles O43: an outcome keeps RESULT or writes one of the codes. -/
theorem resultTakesOnlyTheFiveCodes : Obligations.ResultTakesOnlyTheFiveCodes := by
  intro c s t hexec hchanged
  exact (leaves_of_execCommand hexec).result_kept_or_legal.resolve_left hchanged

/-- The STATUS byte as the OR of its shifted fields (spec/10_state.md R37), over all values of the fields. -/
theorem statusFields_append_eq_or (ill ovf crcZero fcMatch addrMatch : Bool) (result : BitVec 3) :
    BitVec.ofBool ill ++ BitVec.ofBool ovf ++ BitVec.ofBool crcZero ++ BitVec.ofBool fcMatch ++ BitVec.ofBool addrMatch ++
        result =
      ((BitVec.ofBool ill).setWidth 8 <<< 7) ||| ((BitVec.ofBool ovf).setWidth 8 <<< 6) |||
      ((BitVec.ofBool crcZero).setWidth 8 <<< 5) ||| ((BitVec.ofBool fcMatch).setWidth 8 <<< 4) |||
      ((BitVec.ofBool addrMatch).setWidth 8 <<< 3) ||| result.setWidth 8 := by
  revert ill ovf crcZero fcMatch addrMatch result
  decide

theorem statusByte_ovf_bit (s : State) : (statusByte s).getLsbD 6 = s.ovf := by
  simp only [statusByte, BitVec.getLsbD_append]
  simp

theorem statusByte_ill_bit (s : State) : (statusByte s).getLsbD 7 = s.ill := by
  simp only [statusByte, BitVec.getLsbD_append]
  simp

/-- Settles O35. -/
theorem statusByteLayout : Obligations.StatusByteLayout :=
  ⟨rfl, fun _ => statusFields_append_eq_or _ _ _ _ _ _⟩

/-- Settles O42: what sets OVF and ILL is `Leaves.ovf_iff` and `Leaves.ill_iff`; stickiness and the exact conditions are its two
directions. -/
theorem stickyFlagsAreSetAndClearedAsStated : Obligations.StickyFlagsAreSetAndClearedAsStated := by
  refine ⟨rfl, rfl, fun s => ⟨statusByte_ovf_bit s, statusByte_ill_bit s⟩, fun c s t hwf hexec => ?_⟩
  have h := leaves_of_execCommand hexec
  refine ⟨fun hop => ⟨fun hset => ?_, fun hset => ?_⟩, fun hop => ?_, fun hop hclear => ?_, fun hop hclear => ?_⟩
  · exact (h.ovf_iff hwf hop).2 (.inl hset)
  · exact (h.ill_iff hwf hop).2 (.inl hset)
  · exact h.flags_cleared hwf hop
  · simpa [hclear] using h.ovf_iff hwf hop
  · simpa [hclear] using h.ill_iff hwf hop

/-! ### RD_REG -/

/-- RD_REG of an index of the register map emits its byte and changes nothing else. -/
theorem exec_rdReg_of_regByte {s : State} {imm v : Byte} (h : regByte s imm = some v) :
    exec (.rdReg imm) s = .next (emit v s) := by
  rw [show exec (.rdReg imm) s = execRdReg imm s from rfl, execRdReg_eq, h]

theorem exec_rdReg_reserved {s : State} {imm : Byte} (h : 0x0F ≤ imm.toNat) :
    exec (.rdReg imm) s = .next (emit 0x00#8 (setIll s)) := by
  rw [show exec (.rdReg imm) s = execRdReg imm s from rfl, execRdReg_eq, regByte_eq_none.2 h]

/-- Settles O36, row by row of the register map. -/
theorem rdRegAnswersTheRegisterMap : Obligations.RdRegAnswersTheRegisterMap := by
  intro s
  refine ⟨fun row hrow => exec_rdReg_of_regByte ?_, fun imm himm => exec_rdReg_reserved himm⟩
  simp only [List.mem_cons, List.not_mem_nil, or_false] at hrow
  obtain rfl | rfl | rfl | rfl | rfl | rfl | rfl | rfl | rfl | rfl | rfl | rfl | rfl | rfl | rfl := hrow <;> rfl

end Sys2Proof.Machine

/-! ## The host's side

The host's list of inputs: what the next step takes, and programs of register reads (spec/10_state.md R21, R43, R45). -/

namespace Sys2Proof.Machine

/-- Settles O4: a command of the table is served by `exec`, and the host's index moves on after it. -/
theorem stepRunsTheDecodedCommand : Obligations.StepRunsTheDecodedCommand := by
  intro s w i hnext hdecode
  rw [step_command hnext, hdecode, show execCommand (.instr i) s = exec i s from rfl]
  cases exec i s <;> rfl

/-- The placed input is the next one, wherever the host's index stands. -/
theorem nextInput_placeNextInput (s : State) (input : HostInput) : nextInput (placeNextInput s input) = some input := by
  have hlen : (s.host.program.take s.host.index ++
      List.replicate (s.host.index - s.host.program.length) (HostInput.command 0x0000#16)).length = s.host.index := by
    simp only [List.length_append, List.length_take, List.length_replicate]
    omega
  simp only [nextInput, placeNextInput]
  rw [List.getElem?_append_right hlen.le, hlen, Nat.sub_self]
  rfl

/-- Settles O7: a word placed at the host's index is read back there, and only the host's list is replaced. -/
theorem fetchWordIsTakenNext : Obligations.FetchWordIsTakenNext := by
  intro s w _
  have hword : BitVec.ofNat 16 (w.toNat % 2 ^ 16) = w := by
    rw [Nat.mod_eq_of_lt w.isLt, BitVec.ofNat_toNat, BitVec.setWidth_eq]
  rw [State.withFetchWord, hword]
  exact ⟨nextInput_placeNextInput s _, _, rfl, rfl⟩

/-- The commands the host has still to issue are these. -/
def State.Awaits (s : State) (program : List Instr) : Prop :=
  s.host.program.drop s.host.index = program.map (fun i => .command (encode i))

theorem issuing_awaits (s : State) (program : List Instr) : (s.issuing program).Awaits program := rfl

section Awaits

variable {s : State} {i : Instr} {program : List Instr}

theorem State.Awaits.nextInput_eq (h : s.Awaits (i :: program)) : nextInput s = some (.command (encode i)) := by
  have hhead : (s.host.program.drop s.host.index)[0]? = some (.command (encode i)) := by rw [h]; rfl
  rwa [List.getElem?_drop] at hhead

theorem State.Awaits.tail (h : s.Awaits (i :: program)) : (advanceHost s).Awaits program := by
  have htail : (s.host.program.drop s.host.index).tail = program.map (fun i => .command (encode i)) := by rw [h]; rfl
  rwa [List.tail_drop] at htail

/-- A step of a host about to issue a command of the table runs it. -/
theorem State.Awaits.step_eq (h : s.Awaits (i :: program)) : step s = thenAdvanceHost (exec i s) := by
  rw [step_command h.nextInput_eq, decodeWord_encode]
  rfl

/-- A run of a program is its first command and the run of the rest. -/
theorem State.Awaits.run_of_exec {t : State} (h : s.Awaits (i :: program)) (hexec : exec i s = .next t) (n : Nat) :
    Host.Core.run Sys2Proof.core (n + 1) s = Host.Core.run Sys2Proof.core n (advanceHost t) := by
  rw [run_succ, h.step_eq, hexec]
  rfl

end Awaits

/-- Register reads one after another answer the map's bytes of one and the same state, and change nothing but the response list:
RD_REG of a mapped index has no side effect (spec/10_state.md R42). -/
theorem run_rdRegs {indices bytes : List Byte} {s : State} (hbytes : indices.map (regByte s) = bytes.map some)
    (hawaits : s.Awaits (indices.map .rdReg)) :
    ∃ host, Host.Core.run Sys2Proof.core indices.length s =
      .next { s with responses := s.responses ++ bytes, host := host } := by
  induction indices generalizing bytes s with
  | nil =>
    obtain rfl : bytes = [] := by simpa using hbytes.symm
    exact ⟨s.host, by simp [Host.Core.run]⟩
  | cons index indices ih =>
    cases bytes with
    | nil => simp at hbytes
    | cons v bytes =>
      obtain ⟨hv, hrest⟩ : regByte s index = some v ∧ indices.map (regByte s) = bytes.map some := by simpa using hbytes
      obtain ⟨host, hrun⟩ := ih (s := advanceHost (emit v s)) hrest hawaits.tail
      refine ⟨host, ?_⟩
      rw [List.length_cons, hawaits.run_of_exec (exec_rdReg_of_regByte hv), hrun]
      simp [emit, advanceHost]

theorem runProgram_rdRegs {indices bytes : List Byte} {s : State} (hbytes : indices.map (regByte s) = bytes.map some) :
    ∃ host, runProgram (indices.map .rdReg) s = .next { s with responses := s.responses ++ bytes, host := host } := by
  rw [runProgram, List.length_map]
  exact run_rdRegs (s := s.issuing _) hbytes (issuing_awaits s _)

theorem highByte_lowByte_toNat (v : Word) : (highByte v).toNat * 256 + (lowByte v).toNat = v.toNat := by
  rw [show highByte v = opField v from rfl, show lowByte v = immField v from rfl, opField_toNat, immField_toNat]
  omega

theorem pointerHigh_pointerLow_toNat (p : Pointer) : (pointerHigh p).toNat * 256 + (pointerLow p).toNat = p.toNat := by
  have := p.isLt
  simp only [pointerHigh, pointerLow, BitVec.toNat_setWidth, BitVec.extractLsb'_toNat, Nat.shiftRight_eq_div_pow]
  omega

/-- Settles O38: the eight reads answer the bytes of one state, and the two halves of each register make its value. -/
theorem halvesReadTogetherAreOneValue : Obligations.HalvesReadTogetherAreOneValue := by
  intro s
  obtain ⟨host, hrun⟩ := runProgram_rdRegs (s := s)
    (indices := [0x01#8, 0x02#8, 0x05#8, 0x06#8, 0x07#8, 0x08#8, 0x0C#8, 0x0D#8])
    (bytes := [lowByte s.crc, highByte s.crc, pointerLow s.ptr, pointerHigh s.ptr, pointerLow s.len, pointerHigh s.len,
      lowByte s.rxCrc, highByte s.rxCrc]) rfl
  exact ⟨_, _, _, _, _, _, _, _, _, hrun, rfl, highByte_lowByte_toNat _, pointerHigh_pointerLow_toNat _,
    pointerHigh_pointerLow_toNat _, highByte_lowByte_toNat _⟩

end Sys2Proof.Machine

/-! ## Hidden fields

No command is steered by STATUS, and none but RD_REG reads LEN (spec/10_state.md R47, R27). Both are one statement about a
state with some fields hidden: hiding them before a command makes no difference to what is seen after it with them hidden. -/

namespace Sys2Proof.Machine

/-- The state with the stored STATUS fields, or LEN, or both, cleared. -/
def State.hide (status len : Bool) (s : State) : State :=
  { s with
    result := if status then 0#3 else s.result
    addrMatch := !status && s.addrMatch, fcMatch := !status && s.fcMatch, ovf := !status && s.ovf, ill := !status && s.ill
    len := if len then 0#9 else s.len }

@[simp] theorem hide_fbufSize (status len : Bool) (s : State) : (s.hide status len).fbufSize = s.fbufSize := rfl
@[simp] theorem hide_crc (status len : Bool) (s : State) : (s.hide status len).crc = s.crc := rfl
@[simp] theorem hide_addr (status len : Bool) (s : State) : (s.hide status len).addr = s.addr := rfl
@[simp] theorem hide_fc (status len : Bool) (s : State) : (s.hide status len).fc = s.fc := rfl
@[simp] theorem hide_ptr (status len : Bool) (s : State) : (s.hide status len).ptr = s.ptr := rfl
@[simp] theorem hide_rxAddr (status len : Bool) (s : State) : (s.hide status len).rxAddr = s.rxAddr := rfl
@[simp] theorem hide_rxFc (status len : Bool) (s : State) : (s.hide status len).rxFc = s.rxFc := rfl
@[simp] theorem hide_exc (status len : Bool) (s : State) : (s.hide status len).exc = s.exc := rfl
@[simp] theorem hide_rxCrc (status len : Bool) (s : State) : (s.hide status len).rxCrc = s.rxCrc := rfl
@[simp] theorem hide_fbuf (status len : Bool) (s : State) : (s.hide status len).fbuf = s.fbuf := rfl
@[simp] theorem hide_responses (status len : Bool) (s : State) : (s.hide status len).responses = s.responses := rfl
@[simp] theorem hide_host (status len : Bool) (s : State) : (s.hide status len).host = s.host := rfl
@[simp] theorem hide_len (status len : Bool) (s : State) : (s.hide status len).len = if len then 0#9 else s.len := rfl
@[simp] theorem hide_result (status len : Bool) (s : State) : (s.hide status len).result = if status then 0#3 else s.result := rfl
@[simp] theorem hide_addrMatch (status len : Bool) (s : State) : (s.hide status len).addrMatch = (!status && s.addrMatch) := rfl
@[simp] theorem hide_fcMatch (status len : Bool) (s : State) : (s.hide status len).fcMatch = (!status && s.fcMatch) := rfl
@[simp] theorem hide_ovf (status len : Bool) (s : State) : (s.hide status len).ovf = (!status && s.ovf) := rfl
@[simp] theorem hide_ill (status len : Bool) (s : State) : (s.hide status len).ill = (!status && s.ill) := rfl
@[simp] theorem hide_ptrAtEnd (status len : Bool) (s : State) : ptrAtEnd (s.hide status len) = ptrAtEnd s := rfl
@[simp] theorem hide_effectiveAddress (status len : Bool) (s : State) :
    effectiveAddress (s.hide status len) = effectiveAddress s := rfl
@[simp] theorem hide_encodeInBounds (status len : Bool) (s : State) :
    encodeInBounds (s.hide status len) = encodeInBounds s := rfl
@[simp] theorem hide_memRead (status len : Bool) (s : State) (a : Nat) : memRead (s.hide status len) a = memRead s a := rfl
@[simp] theorem hide_readTrailingCrc (status len : Bool) (s : State) (l : Nat) :
    readTrailingCrc (s.hide status len) l = readTrailingCrc s l := rfl
@[simp] theorem hide_memReadRange (status len : Bool) (s : State) (a n : Nat) :
    memReadRange (s.hide status len) a n = memReadRange s a n :=
  memReadRange_congr (t := s.hide status len) (s := s) rfl rfl a n
@[simp] theorem hide_withHeader_memReadRange (status len : Bool) (s : State) (a n : Nat) :
    memReadRange (withHeader (s.hide status len)) a n = memReadRange (withHeader s) a n :=
  memReadRange_congr (t := withHeader (s.hide status len)) (s := withHeader s) rfl rfl a n

theorem eraseStatus_eq_hide : State.eraseStatus = State.hide true false := rfl

theorem eraseLen_eq_hide : State.eraseLen = State.hide false true := rfl

/-- Whether a command is a RD_REG of a hidden field: of STATUS at 0x00, of LEN at 0x07 or 0x08. -/
def ReadsHidden (status len : Bool) (c : Command) : Prop :=
  (status = true ∧ c = .instr (.rdReg 0x00#8)) ∨
  (len = true ∧ (c = .instr (.rdReg 0x07#8) ∨ c = .instr (.rdReg 0x08#8)))

/-- What a command leaves, or that it faults, is the same outside the hidden fields whether they are cleared before it or not. -/
def IgnoresHidden (status len : Bool) (run : State → Result) : Prop :=
  ∀ s, viewResult (State.hide status len) (run (s.hide status len)) = viewResult (State.hide status len) (run s)

section Commands

variable {status len : Bool}

theorem execSetPtr_ignoresHidden (imm : Byte) : IgnoresHidden status len (execSetPtr imm) := by
  intro s
  rw [execSetPtr_eq, execSetPtr_eq, hide_fbufSize]
  split <;> cases status <;> cases len <;> rfl

theorem execBufWr_ignoresHidden (imm : Byte) : IgnoresHidden status len (execBufWr imm) := by
  intro s
  unfold execBufWr memWrite
  rw [hide_ptrAtEnd, hide_fbufSize, hide_effectiveAddress]
  split
  · cases status <;> cases len <;> rfl
  · split <;> cases status <;> cases len <;> rfl

theorem execBufRd_ignoresHidden (imm : Byte) : IgnoresHidden status len (execBufRd imm) := by
  intro s
  unfold execBufRd
  rw [hide_ptrAtEnd, hide_effectiveAddress, hide_memRead]
  split
  · cases status <;> cases len <;> rfl
  · cases memRead s (effectiveAddress s) <;> cases status <;> cases len <;> rfl

theorem withFrame_hide (body : List Byte) (s : State) :
    (withFrame body (s.hide status len)).hide status len = (withFrame body s).hide status len := by
  ext1 <;> simp [withFrame_fbuf]

theorem execEncodeFrame_ignoresHidden (imm : Byte) : IgnoresHidden status len (execEncodeFrame imm) := by
  intro s
  unfold execEncodeFrame
  rw [hide_encodeInBounds]
  split
  · next hbound =>
    rw [buildFrame_eq hbound, buildFrame_eq (s := s.hide status len) hbound, hide_ptr, hide_withHeader_memReadRange]
    cases memReadRange (withHeader s) 0 s.ptr.toNat with
    | error f => rfl
    | ok body => exact congrArg Host.Outcome.next (withFrame_hide body s)
  · cases status <;> cases len <;> rfl

theorem checkFrame_hide (body : List Byte) (rx : Word) (l : Nat) (s : State) :
    (checkFrame body rx l (s.hide status len)).hide status len = (checkFrame body rx l s).hide status len := by
  unfold checkFrame acceptFrame
  simp only [hide_addr, hide_fc]
  split_ifs <;> cases status <;> cases len <;> rfl

/-- DECODE's check of two states that agree outside the hidden fields. -/
theorem checkFrame_hide_congr {t u : State} (body : List Byte) (rx : Word) (l : Nat)
    (h : t.hide status len = u.hide status len) :
    (checkFrame body rx l t).hide status len = (checkFrame body rx l u).hide status len := by
  rw [← checkFrame_hide, h, checkFrame_hide]

theorem execDecodeFrame_ignoresHidden (imm : Byte) : IgnoresHidden status len (execDecodeFrame imm) := by
  intro s
  have hlen : State.hide status len { s.hide status len with len := s.ptr } = State.hide status len { s with len := s.ptr } := by
    cases status <;> cases len <;> rfl
  by_cases h4 : 4 ≤ s.ptr.toNat
  · rw [execDecodeFrame_long imm h4, execDecodeFrame_long imm (s := s.hide status len) h4, hide_ptr, hide_memReadRange,
      hide_readTrailingCrc]
    cases memReadRange s 0 (s.ptr.toNat - 2) with
    | error f => rfl
    | ok body =>
      cases readTrailingCrc s s.ptr.toNat with
      | error f => rfl
      | ok rx => exact congrArg Host.Outcome.next (checkFrame_hide_congr body rx _ hlen)
  · have hshort : s.ptr.toNat < 4 := Nat.lt_of_not_le h4
    rw [(execDecodeFrame_next imm).2 (.inl ⟨hshort, rfl⟩),
      (execDecodeFrame_next imm (s := s.hide status len)).2 (.inl ⟨hshort, rfl⟩)]
    cases status <;> cases len <;> rfl

/-- Every byte of the register map but those of the hidden fields is the same with them hidden. -/
theorem regByte_hide {imm : Byte} (s : State) (h : ¬ ReadsHidden status len (.instr (.rdReg imm))) :
    regByte (s.hide status len) imm = regByte s imm := by
  simp only [ReadsHidden, Command.instr.injEq, Instr.rdReg.injEq, not_or, not_and] at h
  obtain ⟨hstatus, hlen⟩ := h
  unfold regByte
  split
  case h_1 hindex =>
    obtain rfl : imm = 0x00#8 := BitVec.eq_of_toNat_eq hindex
    obtain rfl : status = false := by simpa using hstatus
    rfl
  case h_8 hindex =>
    obtain rfl : imm = 0x07#8 := BitVec.eq_of_toNat_eq hindex
    obtain rfl : len = false := by simpa using hlen
    rfl
  case h_9 hindex =>
    obtain rfl : imm = 0x08#8 := BitVec.eq_of_toNat_eq hindex
    obtain rfl : len = false := by simpa using hlen
    rfl
  all_goals rfl

theorem execRdReg_hide {imm : Byte} (s : State) (h : ¬ ReadsHidden status len (.instr (.rdReg imm))) :
    viewResult (State.hide status len) (execRdReg imm (s.hide status len)) =
      viewResult (State.hide status len) (execRdReg imm s) := by
  rw [execRdReg_eq, execRdReg_eq, regByte_hide s h]
  cases regByte s imm <;> cases status <;> cases len <;> rfl

/-- Every command but the RD_REGs of the hidden fields ignores them. -/
theorem execCommand_hide (c : Command) (s : State) (h : ¬ ReadsHidden status len c) :
    viewResult (State.hide status len) (execCommand c (s.hide status len)) =
      viewResult (State.hide status len) (execCommand c s) := by
  cases c with
  | reserved => cases status <;> cases len <;> rfl
  | instr i =>
    cases i with
    | setPtr imm => exact execSetPtr_ignoresHidden imm s
    | bufWr imm => exact execBufWr_ignoresHidden imm s
    | bufRd imm => exact execBufRd_ignoresHidden imm s
    | encodeFrame imm => exact execEncodeFrame_ignoresHidden imm s
    | decodeFrame imm => exact execDecodeFrame_ignoresHidden imm s
    | rdReg imm => exact execRdReg_hide s h
    | nop | crcInit | crcByte | setAddr | setFc | clrStatus => cases status <;> cases len <;> rfl

/-- Two states that agree outside the hidden fields, run through such a command, end alike outside them. -/
theorem execCommand_hide_congr {c : Command} {s u : State} (hsu : s.hide status len = u.hide status len)
    (h : ¬ ReadsHidden status len c) :
    viewResult (State.hide status len) (execCommand c s) = viewResult (State.hide status len) (execCommand c u) := by
  rw [← execCommand_hide c s h, hsu, execCommand_hide c u h]

end Commands

/-- Settles O44: STATUS hidden, LEN seen. -/
theorem noCommandIsSteeredByStatus : Obligations.NoCommandIsSteeredByStatus := by
  intro c s u hsu hc
  rw [eraseStatus_eq_hide] at hsu ⊢
  exact execCommand_hide_congr hsu (by simpa [ReadsHidden] using hc)

/-- Settles O45: LEN hidden, STATUS seen. -/
theorem noCommandReadsLen : Obligations.NoCommandReadsLen := by
  intro c s u hsu hlow hhigh
  rw [eraseLen_eq_hide] at hsu ⊢
  exact execCommand_hide_congr hsu (by simpa [ReadsHidden] using ⟨hlow, hhigh⟩)

end Sys2Proof.Machine

/-! ## FBUF

What a store leaves of FBUF, and which bytes a command reads and writes (spec/20_memory.md R63 to R67). -/

namespace Sys2Proof.Machine

/-- A store marks its own address written and no other. -/
@[simp] theorem isWritten_storeByte (a : Nat) (v : Byte) (s : State) (b : Nat) :
    (storeByte a v s).isWritten b = (s.isWritten b || b == a) := by
  simp only [State.isWritten, storeByte_fbuf, Memory.byteAt_setByte]
  by_cases hab : a = b
  · simp [hab]
  · simp [hab, Ne.symm hab]

/-- ENCODE's header writes mark 0 and 1 written and no other address. -/
theorem isWritten_withHeader_of_le (s : State) {a : Nat} (ha : 2 ≤ a) : (withHeader s).isWritten a = s.isWritten a := by
  have h0 : (a == 0) = false := beq_false_of_ne (by omega)
  have h1 : (a == 1) = false := beq_false_of_ne (by omega)
  simp [withHeader, h0, h1]

theorem isWritten_of_memRead {s : State} {a : Nat} {v : Byte} (h : memRead s a = .ok v) : s.isWritten a = true :=
  Option.isSome_of_eq_some (memRead_ok.1 h).2

/-- A run of reads that answers has read written bytes only. -/
theorem writtenRange_of_memReadRange {s : State} {a n : Nat} {bytes : List Byte} (h : memReadRange s a n = .ok bytes) :
    s.WrittenRange a n := by
  obtain ⟨rfl, hholds⟩ := memReadRange_ok.1 h
  exact fun k hk => isWritten_of_memRead (hholds k hk)

/-- Settles O25: a MemWrite in range is one store, and reads and written bits after a store are known at every address. -/
theorem fbufReadsTheLastWrite : Obligations.FbufReadsTheLastWrite := by
  intro s a v ha
  refine ⟨storeByte a v s, memWrite_of_lt v ha, fun b => ?_, isWritten_storeByte a v s, rfl⟩
  simp only [memRead_storeByte ha, @eq_comm Nat b]

/-! ### Where FBUF changes -/

/-- ENCODE within its bound leaves every byte that is neither of the header nor of the CRC. -/
theorem memRead_withFrame_of_ne {s : State} {a : Nat} (body : List Byte) (hbound : encodeInBounds s = true)
    (h0 : a ≠ 0) (h1 : a ≠ 1) (hp : a ≠ s.ptr.toNat) (hp1 : a ≠ s.ptr.toNat + 1) :
    memRead (withFrame body s) a = memRead s a := by
  have hsize : 2 ≤ s.fbufSize := by
    rw [encodeInBounds_iff] at hbound
    omega
  rw [memRead_withFrame hbound, if_neg hp1, if_neg hp, memRead_withHeader hsize, if_neg h1, if_neg h0]

/-- Settles O40: of the outcomes of a command, only BUF_WR's store and ENCODE's frame differ from the old state in FBUF. -/
theorem fbufChangesOnlyWhereStoredTo : Obligations.FbufChangesOnlyWhereStoredTo := by
  intro c s t a hexec hchanged
  cases leaves_of_execCommand hexec with
  | bufWr imm hlt =>
    refine .inl ⟨imm, rfl, ?_⟩
    by_contra hne
    rw [memRead_advancePtr, memRead_storeByte hlt, if_neg fun heq => hne heq.symm] at hchanged
    exact hchanged rfl
  | encodeFrame imm body hbound =>
    refine .inr ⟨imm, rfl, hbound, ?_⟩
    by_contra hne
    push Not at hne
    obtain ⟨h0, h1, hp, hp1⟩ := hne
    exact hchanged (memRead_withFrame_of_ne body hbound h0 h1 hp hp1)
  | _ => exact absurd rfl hchanged

/-! ### Which bytes a command reads -/

/-- The FBUF addresses a command reads whose `written` bit the state before it decides: BUF_RD below the end reads PTR, ENCODE
its payload (the header it has just written), DECODE its whole frame unless that is short. -/
def ReadsAddress (c : Command) (s : State) (a : Nat) : Prop :=
  match c with
  | .instr (.bufRd _) => s.ptr.toNat ≠ s.fbufSize ∧ a = s.ptr.toNat
  | .instr (.encodeFrame _) => encodeInBounds s = true ∧ 2 ≤ a ∧ a < s.ptr.toNat
  | .instr (.decodeFrame _) => 4 ≤ s.ptr.toNat ∧ a < s.ptr.toNat
  | _ => False

section Reads

variable {s t : State} {c : Command} {a : Nat} {f : Fault}

/-- `readsWritten` asks that every address the command reads be written. -/
theorem readsWritten_iff : readsWritten c s ↔ ∀ a, ReadsAddress c s a → s.isWritten a = true := by
  cases c with
  | reserved => simp [readsWritten, ReadsAddress]
  | instr i =>
    cases i with
    | bufRd imm => simp [readsWritten, ReadsAddress, ptrAtEnd_iff, or_iff_not_imp_left]
    | encodeFrame imm =>
      constructor
      · rintro h a ⟨hbound, h2, hlt⟩
        simpa [Nat.add_sub_cancel' h2] using h hbound (a - 2) (by omega)
      · exact fun h hbound k hk => h (2 + k) ⟨hbound, by omega, by omega⟩
    | decodeFrame imm =>
      simp only [readsWritten, ReadsAddress, State.WrittenRange, Nat.zero_add, and_imp]
      exact forall_comm
    | _ => simp [readsWritten, ReadsAddress]

theorem ReadsAddress.opcode_mem (h : ReadsAddress c s a) : c.opcode ∈ [0x22#8, 0x30#8, 0x31#8] := by
  cases c with
  | reserved => exact h.elim
  | instr i =>
    cases i with
    | bufRd | encodeFrame | decodeFrame => simp [Command.opcode, Instr.opcode]
    | _ => exact h.elim

/-- With PTR in range, every address a command reads is in FBUF. -/
theorem ReadsAddress.lt_fbufSize (h : ReadsAddress c s a) (hptr : s.PtrInRange) : a < s.fbufSize := by
  cases c with
  | reserved => exact h.elim
  | instr i =>
    cases i with
    | bufRd =>
      obtain ⟨hne, rfl⟩ := h
      exact Nat.lt_of_le_of_ne hptr hne
    | encodeFrame =>
      obtain ⟨-, -, hlt⟩ := h
      exact Nat.lt_of_lt_of_le hlt hptr
    | decodeFrame =>
      obtain ⟨-, hlt⟩ := h
      exact Nat.lt_of_lt_of_le hlt hptr
    | _ => exact h.elim

theorem isWritten_of_readTrailingCrc {l : Nat} {rx : Word} (h : readTrailingCrc s l = .ok rx) :
    s.isWritten (l - 1) = true ∧ s.isWritten (l - 2) = true := by
  obtain ⟨hi, lo, hhi, hlo, -⟩ := readTrailingCrc_ok.1 h
  exact ⟨isWritten_of_memRead hhi, isWritten_of_memRead hlo⟩

/-- A command that completes has read written bytes only. -/
theorem ReadsAddress.isWritten_of_next (h : ReadsAddress c s a) (hexec : execCommand c s = .next t) :
    s.isWritten a = true := by
  cases c with
  | reserved => exact h.elim
  | instr i =>
    cases i with
    | bufRd imm =>
      obtain ⟨hne, rfl⟩ := h
      obtain ⟨hend, -⟩ | ⟨-, v, hread, -⟩ := (execBufRd_next imm).1 hexec
      · exact absurd hend hne
      · exact isWritten_of_memRead hread
    | encodeFrame imm =>
      obtain ⟨hbound, h2, hlt⟩ := h
      obtain ⟨hout, -⟩ | ⟨-, body, hbody, -⟩ := (execEncodeFrame_next imm).1 hexec
      · simp [hbound] at hout
      · rw [← isWritten_withHeader_of_le s h2]
        simpa using writtenRange_of_memReadRange hbody a hlt
    | decodeFrame imm =>
      obtain ⟨h4, hlt⟩ := h
      obtain ⟨hshort, -⟩ | ⟨-, body, rx, hbody, hrx, -⟩ := (execDecodeFrame_next imm).1 hexec
      · omega
      · obtain ⟨hhi, hlo⟩ := isWritten_of_readTrailingCrc hrx
        obtain hin | rfl | rfl : a < s.ptr.toNat - 2 ∨ a = s.ptr.toNat - 1 ∨ a = s.ptr.toNat - 2 := by omega
        · simpa using writtenRange_of_memReadRange hbody a hin
        · exact hhi
        · exact hlo
    | _ => exact h.elim

/-- ENCODE's run of reads faults in its payload: its header is written. -/
theorem payload_of_memReadRange_withHeader_error {n : Nat} (hsize : 2 ≤ s.fbufSize)
    (h : memReadRange (withHeader s) 0 n = .error f) : ∃ a, 2 ≤ a ∧ a < n ∧ memRead s a = .error f := by
  obtain ⟨a, hlt, hread, -⟩ := memReadRange_error h
  rw [Nat.zero_add, memRead_withHeader hsize] at hread
  split_ifs at hread with h1 h0
  exact ⟨a, by omega, hlt, hread⟩

/-- With PTR in range, a command that faults does so at an address it reads. -/
theorem readsAddress_of_fault (hptr : s.PtrInRange) (hexec : execCommand c s = .fault f) :
    ∃ a, ReadsAddress c s a ∧ memRead s a = .error f := by
  cases c with
  | reserved => cases hexec
  | instr i =>
    cases i with
    | setPtr imm => cases (execSetPtr_eq imm s).symm.trans hexec
    | rdReg imm => cases (execRdReg_eq imm s).symm.trans hexec
    | bufWr imm =>
      obtain ⟨hover, -⟩ := execBufWr_fault.1 hexec
      exact absurd hptr (Nat.not_le.2 hover)
    | bufRd imm =>
      obtain ⟨hne, hread⟩ := (execBufRd_fault imm).1 hexec
      exact ⟨_, ⟨hne, rfl⟩, hread⟩
    | encodeFrame imm =>
      obtain ⟨hbound, hbody⟩ := (execEncodeFrame_fault imm).1 hexec
      have hsize : 2 ≤ s.fbufSize := Nat.le_trans (encodeInBounds_iff.1 hbound).1 hptr
      obtain ⟨a, h2, hlt, hread⟩ := payload_of_memReadRange_withHeader_error hsize hbody
      exact ⟨a, ⟨hbound, h2, hlt⟩, hread⟩
    | decodeFrame imm =>
      obtain ⟨h4, a, hlt, hread⟩ := execDecodeFrame_fault imm hexec
      exact ⟨a, ⟨h4, hlt⟩, hread⟩
    | nop | crcInit | crcByte | setAddr | setFc | clrStatus => cases hexec

/-- The model gives every command a meaning. -/
theorem execCommand_not_refused (c : Command) (s : State) (q : Refusal) : execCommand c s ≠ .refused q := by
  intro hexec
  cases c with
  | reserved => cases hexec
  | instr i =>
    cases i with
    | setPtr imm => cases (execSetPtr_eq imm s).symm.trans hexec
    | rdReg imm => cases (execRdReg_eq imm s).symm.trans hexec
    | bufWr | bufRd | decodeFrame =>
      simp only [execCommand, exec, execBufWr, execBufRd, execDecodeFrame] at hexec
      split at hexec
      · cases hexec
      · exact finish_not_refused _ _ hexec
    | encodeFrame =>
      simp only [execCommand, exec, execEncodeFrame] at hexec
      split at hexec
      · exact finish_not_refused _ _ hexec
      · cases hexec
    | nop | crcInit | crcByte | setAddr | setFc | clrStatus => cases hexec

end Reads

/-- Settles O46: a command that completes read written bytes only, and one that faults does so at an address it reads, which is in
FBUF and so unwritten. -/
theorem commandsStopOnlyOnUnwrittenBytes : Obligations.CommandsStopOnlyOnUnwrittenBytes := by
  rintro c s ⟨-, hptr, -⟩
  rw [readsWritten_iff]
  cases hexec : execCommand c s with
  | next t => exact ⟨fun _ => ⟨t, rfl⟩, fun hsome => absurd (fun a h => h.isWritten_of_next hexec) hsome⟩
  | refused q => exact absurd hexec (execCommand_not_refused c s q)
  | fault f =>
    obtain ⟨a, hreads, hread⟩ := readsAddress_of_fault hptr hexec
    have hin := hreads.lt_fbufSize hptr
    obtain ⟨-, hunwritten, rfl⟩ | ⟨hout, -⟩ := memRead_error.1 hread
    · exact ⟨fun hall => by simp [hall a hreads] at hunwritten,
        fun _ => ⟨hreads.opcode_mem, a, hin, hunwritten, rfl⟩⟩
    · omega

end Sys2Proof.Machine

/-! ## Command words

Which opcodes have a row, and that a word and what it selects determine each other (spec/30_encoding.md R80 to R84). -/

namespace Sys2Proof

/-- The ranges of R84 are exactly the opcodes without a row in R82. -/
theorem reservedOpcode_iff (op : Byte) : reservedOpcode op = true ↔ ∀ row ∈ opcodeMap, row.op ≠ op := by
  have := op.isLt
  simp only [reservedOpcode, opcodeMap, List.forall_mem_cons, List.not_mem_nil, IsEmpty.forall_iff, implies_true, and_true,
    ne_eq, ← BitVec.toNat_inj, BitVec.toNat_ofNat, Bool.or_eq_true, Bool.and_eq_true, decide_eq_true_eq]
  omega

/-- A row builds the command with its own opcode and the given IMM. -/
theorem opcode_imm_of_mem_opcodeMap {row : OpcodeRow} (h : row ∈ opcodeMap) (imm : Byte) :
    (row.build imm).opcode = row.op ∧ (row.build imm).imm = imm := by
  simp only [opcodeMap, List.mem_cons, List.not_mem_nil, or_false] at h
  obtain rfl | rfl | rfl | rfl | rfl | rfl | rfl | rfl | rfl | rfl | rfl | rfl := h <;> exact ⟨rfl, rfl⟩

/-- Every opcode but the 12 of the table is reserved (spec/30_encoding.md R82). -/
theorem reservedOpcode_count : ((List.range 256).filter (fun n => reservedOpcode (BitVec.ofNat 8 n))).length = 244 := by
  decide +kernel

theorem decodeFields_of_reserved {op : Byte} (h : reservedOpcode op = true) (imm : Byte) :
    decodeFields op imm = .reserved op imm := by
  obtain ⟨row, hrow, hop, -⟩ | ⟨-, hdecode⟩ := decodeFields_cases op imm
  · exact absurd hop ((reservedOpcode_iff op).1 h row hrow)
  · exact hdecode

theorem decodeFields_of_not_reserved {op : Byte} (h : reservedOpcode op = false) (imm : Byte) :
    ∃ i : Instr, decodeFields op imm = .instr i ∧ i.opcode = op ∧ i.imm = imm := by
  obtain ⟨row, hrow, rfl, hdecode⟩ | ⟨hnone, -⟩ := decodeFields_cases op imm
  · exact ⟨row.build imm, hdecode, opcode_imm_of_mem_opcodeMap hrow imm⟩
  · simp [(reservedOpcode_iff op).2 hnone] at h

/-- What OP and IMM select has them as its word, and is reserved only where R84 says so. -/
theorem decodeFields_encode_wellFormed (op imm : Byte) :
    (decodeFields op imm).encode = encodeFields op imm ∧ (decodeFields op imm).wellFormed = true := by
  cases h : reservedOpcode op with
  | true =>
    rw [decodeFields_of_reserved h]
    exact ⟨rfl, h⟩
  | false =>
    obtain ⟨i, hdecode, rfl, rfl⟩ := decodeFields_of_not_reserved h imm
    rw [hdecode]
    exact ⟨rfl, rfl⟩

/-- Settles O10: the word's two fields are all that a command's word holds, and OP alone decides the row. -/
theorem commandWordsAndCommandsAgree : Obligations.CommandWordsAndCommandsAgree := by
  refine ⟨fun c hwf => ?_, fun w => ?_⟩
  · cases c with
    | instr i => exact decodeWord_encode i
    | reserved op imm => exact (decodeWord_encodeFields op imm).trans (decodeFields_of_reserved hwf imm)
  · obtain ⟨hword, hwf⟩ := decodeFields_encode_wellFormed (opField w) (immField w)
    exact ⟨hword.trans (encodeFields_opField_immField w), hwf⟩

/-- Settles O9: the reserved opcodes are those without a row, and the rest select their row. -/
theorem reservedExactlyOutsideTheMap : Obligations.ReservedExactlyOutsideTheMap :=
  ⟨by decide, fun w => ⟨fun h => decodeFields_of_reserved h _, fun h => decodeFields_of_not_reserved h _⟩, reservedOpcode_count⟩

/-- Settles O12: expansion by expansion, each command's word is its opcode and its IMM. -/
theorem pseudoInstructionsExpand : Obligations.PseudoInstructionsExpand :=
  ⟨fun _ _ => congrArg (_ :: ·) List.map_map, fun _ _ => rfl, fun _ => congrArg (_ :: ·) List.map_map,
    fun _ => List.map_replicate, rfl, rfl, rfl⟩

end Sys2Proof

/-! ## LOAD

A row of BUF_WR commands writes consecutive bytes from PTR on, and LOAD is SET_PTR and such a row (spec/30_encoding.md R91,
spec/41_buffer.md R122, R127). -/

namespace Sys2Proof.Machine

/-- What loading bytes from address `a` on leaves of a state: the bytes in FBUF, PTR past them, all else as it was but the
host's side. -/
structure Loaded (a : Nat) (bytes : List Byte) (s t : State) : Prop where
  ptr : t.ptr.toNat = a + bytes.length
  holds : t.Holds a bytes
  others : ∀ b, b < a ∨ a + bytes.length ≤ b → memRead t b = memRead s b
  frame : t = { s with ptr := t.ptr, fbuf := t.fbuf, host := t.host }

section Load

variable {s t : State} {bytes : List Byte} {rest : List Instr}

theorem loaded_nil (s : State) : Loaded s.ptr.toNat [] s s :=
  ⟨rfl, fun k hk => absurd hk (Nat.not_lt_zero k), fun _ _ => rfl, rfl⟩

/-- The first byte stored at PTR, and the others loaded after it. -/
theorem Loaded.cons {b : Byte} (hlt : s.ptr.toNat < s.fbufSize)
    (h : Loaded (s.ptr.toNat + 1) bytes (advanceHost (advancePtr (storeByte s.ptr.toNat b s))) t) :
    Loaded s.ptr.toNat (b :: bytes) s t where
  ptr := by rw [h.ptr, List.length_cons]; omega
  holds k hk := by
    cases k with
    | zero =>
      rw [h.others _ (by omega), memRead_advanceHost, memRead_advancePtr, memRead_storeByte hlt]
      simp
    | succ k =>
      rw [show s.ptr.toNat + (k + 1) = s.ptr.toNat + 1 + k by omega]
      exact h.holds k (Nat.lt_of_succ_lt_succ hk)
  others c hc := by
    rw [List.length_cons] at hc
    rw [h.others c (by omega), memRead_advanceHost, memRead_advancePtr, memRead_storeByte hlt, if_neg (by omega)]
  frame := by
    rw [h.frame]
    rfl

/-- BUF_WR commands within FBUF load their bytes from PTR on, and the run goes on with the rest of the program. -/
theorem run_bufWrs (hsize : s.fbufSize ≤ 256) (hfit : s.ptr.toNat + bytes.length ≤ s.fbufSize)
    (hawaits : s.Awaits (bytes.map .bufWr ++ rest)) :
    ∃ t, Loaded s.ptr.toNat bytes s t ∧ t.Awaits rest ∧
      ∀ n, Host.Core.run Sys2Proof.core (bytes.length + n) s = Host.Core.run Sys2Proof.core n t := by
  induction bytes generalizing s with
  | nil => exact ⟨s, loaded_nil s, hawaits, fun n => by rw [List.length_nil, Nat.zero_add]⟩
  | cons b bytes ih =>
    rw [List.length_cons] at hfit
    have hlt : s.ptr.toNat < s.fbufSize := by omega
    have hptr := ptr_succ_toNat hsize hlt
    have hexec : exec (.bufWr b) s = .next (advancePtr (storeByte s.ptr.toNat b s)) := execBufWr_next.2 (.inr ⟨hlt, rfl⟩)
    obtain ⟨t, hloaded, hrest, hrun⟩ := ih (s := advanceHost (advancePtr (storeByte s.ptr.toNat b s))) hsize
      (by rw [advanceHost_ptr, advancePtr_ptr, storeByte_ptr, hptr]; exact (Nat.add_right_comm ..).trans_le hfit) hawaits.tail
    rw [advanceHost_ptr, advancePtr_ptr, storeByte_ptr, hptr] at hloaded
    refine ⟨t, hloaded.cons hlt, hrest, fun n => ?_⟩
    rw [List.length_cons, Nat.add_right_comm, State.Awaits.run_of_exec hawaits hexec, hrun]

/-- LOAD within FBUF loads its bytes from its offset on, and the run goes on with the rest of the program. -/
theorem run_load {off : Byte} (hsize : s.fbufSize ≤ 256) (hfit : off.toNat + bytes.length ≤ s.fbufSize)
    (hawaits : s.Awaits (expandPseudo (.load off bytes) ++ rest)) :
    ∃ t, Loaded off.toNat bytes s t ∧ t.Awaits rest ∧
      ∀ n, Host.Core.run Sys2Proof.core (bytes.length + 1 + n) s = Host.Core.run Sys2Proof.core n t := by
  have hexec : exec (.setPtr off) s = .next { s with ptr := indexOperand off } := by
    rw [show exec (.setPtr off) s = execSetPtr off s from rfl, execSetPtr_eq, if_neg (by omega)]
  obtain ⟨t, ⟨hptr, hholds, hothers, hframe⟩, hrest, hrun⟩ :=
    run_bufWrs (s := advanceHost { s with ptr := indexOperand off }) hsize
      (by rwa [advanceHost_ptr, indexOperand_toNat]) hawaits.tail
  rw [advanceHost_ptr, indexOperand_toNat] at hptr hholds hothers
  refine ⟨t, ⟨hptr, hholds, hothers, hframe⟩, hrest, fun n => ?_⟩
  rw [Nat.add_right_comm, State.Awaits.run_of_exec hawaits hexec, hrun]

end Load

/-- Settles O26: LOAD run from the start of its own program, with nothing after it. -/
theorem loadPlacesItsBytes : Obligations.LoadPlacesItsBytes := by
  rintro off bytes s ⟨-, hsize⟩ hfit
  obtain ⟨t, ⟨hptr, hholds, hothers, hframe⟩, -, hrun⟩ :=
    run_load (s := s.issuing (expandPseudo (.load off bytes))) (rest := []) hsize hfit
      (by rw [List.append_nil]; exact issuing_awaits s _)
  have hlength : (expandPseudo (.load off bytes)).length = bytes.length + 1 := by simp [expandPseudo]
  refine ⟨t, ?_, hptr, hholds, hothers, hframe⟩
  rw [runProgram, hlength]
  exact hrun 0

end Sys2Proof.Machine

/-! ## The CRC

The shift is linear over XOR and injective, which gives the algebra of crc16_byte and the residue; and the streaming commands
run as programs (spec/40_crc.md). -/

namespace Sys2Proof.Machine

/-! ### The shift -/

theorem getLsbD_zero_iff_and_one (c : Word) : c.getLsbD 0 = true ↔ c &&& 1#16 = 1#16 := by
  rw [BitVec.and_one_eq_setWidth_ofBool_getLsbD]
  cases c.getLsbD 0 <;> decide

theorem crcShifts_eq_iterate (n : Nat) : crcShifts n = crcShift^[n] := by
  induction n with
  | zero => rfl
  | succ n ih => rw [Function.iterate_succ, ← ih]; rfl

theorem crcShift_of_getLsbD_zero {c : Word} (h : c.getLsbD 0 = false) : crcShift c = c >>> 1 := by
  rw [crcShift, h]
  rfl

/-- Only zero is shifted to zero: a tested bit of 1 sets bit 15. -/
theorem crcShift_eq_zero {c : Word} (h : crcShift c = 0#16) : c = 0#16 := by
  unfold crcShift at h
  split at h
  · have hmsb : ((c >>> 1) ^^^ Config.crcPolynomial).getLsbD 15 = true := by
      simp [Config.crcPolynomial]
    rw [h] at hmsb
    cases hmsb
  · next h0 =>
    apply BitVec.eq_of_getLsbD_eq
    intro i _
    cases i with
    | zero => simpa using h0
    | succ i => rw [Nat.add_comm, ← BitVec.getLsbD_ushiftRight, h]; simp

theorem crcShift_injective : Function.Injective crcShift := fun c d h =>
  BitVec.xor_eq_zero_iff.1 (crcShift_eq_zero (by rw [crcShift_xor, h, BitVec.xor_self]))

theorem crcShifts_injective (n : Nat) : Function.Injective (crcShifts n) := by
  rw [crcShifts_eq_iterate]
  exact crcShift_injective.iterate n

@[simp] theorem crcShifts_of_zero (n : Nat) : crcShifts n 0#16 = 0#16 := by
  induction n with
  | zero => rfl
  | succ n ih => exact ih

/-- While the tested bits are 0, shifting is all that happens. -/
theorem crcShifts_eq_ushiftRight {n : Nat} {c : Word} (h : ∀ i < n, c.getLsbD i = false) : crcShifts n c = c >>> n := by
  induction n generalizing c with
  | zero => simp
  | succ n ih =>
    have hbits : ∀ i < n, (c >>> 1).getLsbD i = false := fun i hi => by
      rw [BitVec.getLsbD_ushiftRight, Nat.add_comm]
      exact h (i + 1) (Nat.succ_lt_succ hi)
    rw [crcShifts_succ, crcShift_of_getLsbD_zero (h 0 n.succ_pos), ih hbits, ← BitVec.shiftRight_add, Nat.add_comm]

/-! ### The two bytes of a CRC value -/

theorem highByte_append_lowByte (c : Word) : highByte c ++ lowByte c = c := encodeFields_opField_immField c

@[simp] theorem lowByte_append (y x : Byte) : lowByte (y ++ x) = x := immField_encodeFields y x

theorem append_xor_setWidth (y x : Byte) : (y ++ x) ^^^ x.setWidth 16 = y ++ 0#8 := by
  apply BitVec.eq_of_getLsbD_eq
  intro i hi
  simp only [BitVec.getLsbD_xor, BitVec.getLsbD_append, BitVec.getLsbD_setWidth, hi]
  by_cases h : i < 8
  · simp [h]
  · simp [h, BitVec.getLsbD_of_ge x i (Nat.le_of_not_lt h)]

/-- A high byte alone is shifted down to the low byte. -/
theorem crcShifts_highByte (y : Byte) : crcShifts 8 (y ++ 0#8) = y.setWidth 16 := by
  have hlow : ∀ i < 8, (y ++ 0#8).getLsbD i = false := fun i hi => by
    rw [BitVec.getLsbD_append, if_pos hi, BitVec.getLsbD_zero]
  rw [crcShifts_eq_ushiftRight hlow]
  apply BitVec.eq_of_getLsbD_eq
  intro i hi
  rw [BitVec.getLsbD_ushiftRight, BitVec.getLsbD_append, if_neg (by omega), Nat.add_sub_cancel_left]
  simp [hi]

/-- The 8 shifts of a byte XORed in over its own value leave the other byte, moved down. -/
theorem crc16Byte_append (y x : Byte) : crc16Byte (y ++ x) x = y.setWidth 16 := by
  rw [crc16Byte, append_xor_setWidth, crcShifts_highByte]

theorem setWidth_highByte (c : Word) : (highByte c).setWidth 16 = c >>> 8 := by
  apply BitVec.eq_of_getLsbD_eq
  intro i hi
  have hlow : c.getLsbD (8 + i) = true → i < 8 := fun h => by
    have := BitVec.lt_of_getLsbD h
    omega
  simpa [highByte, hi] using hlow

/-! ### crc16_byte and crc16 -/

theorem crc16Byte_xor (c1 c2 : Word) (b1 b2 : Byte) :
    crc16Byte (c1 ^^^ c2) (b1 ^^^ b2) = crc16Byte c1 b1 ^^^ crc16Byte c2 b2 := by
  simp only [crc16Byte]
  rw [← crcShifts_xor, BitVec.setWidth_xor]
  congr 1
  ac_rfl

@[simp] theorem crc16Byte_zero_zero : crc16Byte 0#16 0#8 = 0#16 := crcShifts_of_zero 8

theorem crc16Byte_bijective (b : Byte) : Function.Bijective (fun c => crc16Byte c b) :=
  Finite.injective_iff_bijective.1 fun _ _ h => (BitVec.xor_left_inj _).1 (crcShifts_injective 8 h)

theorem crc16_bijective (bytes : List Byte) : Function.Bijective (fun c => crc16 c bytes) := by
  induction bytes with
  | nil => exact Function.bijective_id
  | cons b bytes ih => exact ih.comp (crc16Byte_bijective b)

/-- The table form (R102): the high byte moved down, XOR the table entry of the low byte. -/
theorem crc16Byte_eq_table (c : Word) (b : Byte) :
    crc16Byte c b = (c >>> 8) ^^^ crc16Byte 0#16 (lowByte c ^^^ b) := by
  have hhigh : crc16Byte c (lowByte c) = c >>> 8 := by
    conv_lhs => rw [← highByte_append_lowByte c, lowByte_append, crc16Byte_append]
    exact setWidth_highByte c
  calc crc16Byte c b = crc16Byte (c ^^^ 0#16) (lowByte c ^^^ (lowByte c ^^^ b)) := by
        rw [BitVec.xor_zero, ← BitVec.xor_assoc, BitVec.xor_self, BitVec.zero_xor]
    _ = (c >>> 8) ^^^ crc16Byte 0#16 (lowByte c ^^^ b) := by rw [crc16Byte_xor, hhigh]

theorem crc16_eq_foldl (c : Word) (bytes : List Byte) : crc16 c bytes = bytes.foldl crc16Byte c := by
  induction bytes generalizing c with
  | nil => rfl
  | cons b bytes ih => exact ih _

/-- Folding a byte gives zero exactly when the CRC value is that byte. -/
theorem crc16Byte_eq_zero_iff {c : Word} {b : Byte} : crc16Byte c b = 0#16 ↔ c = b.setWidth 16 :=
  calc crc16Byte c b = 0#16 ↔ crcShifts 8 (c ^^^ b.setWidth 16) = crcShifts 8 0#16 := by rw [crcShifts_of_zero, crc16Byte]
    _ ↔ c ^^^ b.setWidth 16 = 0#16 := (crcShifts_injective 8).eq_iff
    _ ↔ c = b.setWidth 16 := BitVec.xor_eq_zero_iff

/-- The residue (R104): two bytes bring a CRC value to zero exactly when they are its own, low byte first. -/
theorem crc16_pair_eq_zero_iff (c : Word) (x y : Byte) : crc16 c [x, y] = 0#16 ↔ y ++ x = c :=
  calc crc16 c [x, y] = 0#16 ↔ crc16Byte c x = y.setWidth 16 := crc16Byte_eq_zero_iff
    _ ↔ crc16Byte c x = crc16Byte (y ++ x) x := by rw [crc16Byte_append]
    _ ↔ c = y ++ x := (crc16Byte_bijective x).injective.eq_iff
    _ ↔ y ++ x = c := eq_comm

theorem crc16_append_pair_eq_zero_iff (c : Word) (body : List Byte) (x y : Byte) :
    crc16 c (body ++ [x, y]) = 0#16 ↔ y ++ x = crc16 c body := by
  rw [crc16_append, crc16_pair_eq_zero_iff]

/-! ### Fixed points of a zero byte -/

/-- The one CRC value with a given low byte that a zero byte can leave unchanged: by the table form its high byte is the table
entry's, and its low byte the XOR of the two bytes of the entry. -/
def zeroByteCandidate (low : Byte) : Word := (crc16Byte 0#16 low >>> 8) ^^^ crc16Byte 0#16 low

theorem eq_zeroByteCandidate {c : Word} (h : crc16Byte c 0#8 = c) : c = zeroByteCandidate (lowByte c) := by
  have htable : c = (c >>> 8) ^^^ crc16Byte 0#16 (lowByte c) := by
    conv_lhs => rw [← h, crc16Byte_eq_table, BitVec.xor_zero]
  have hhigh : c >>> 8 = crc16Byte 0#16 (lowByte c) >>> 8 := by
    conv_lhs => rw [htable, BitVec.ushiftRight_xor_distrib, ← BitVec.shiftRight_add]
    rw [BitVec.ushiftRight_eq_zero (by decide), BitVec.zero_xor]
  rwa [hhigh] at htable

theorem zeroByteCandidate_fixed (low : Byte) (h : crc16Byte (zeroByteCandidate low) 0#8 = zeroByteCandidate low) :
    zeroByteCandidate low = 0x0000#16 ∨ zeroByteCandidate low = 0xC001#16 := by
  revert low
  decide +kernel

theorem crc16Byte_zeroByte_eq_self_iff (c : Word) : crc16Byte c 0x00#8 = c ↔ c = 0x0000#16 ∨ c = 0xC001#16 := by
  constructor
  · intro h
    have hc := eq_zeroByteCandidate h
    rw [hc] at h ⊢
    exact zeroByteCandidate_fixed _ h
  · rintro (rfl | rfl) <;> decide

/-! ### The streaming commands -/

theorem crcZero_iff (s : State) : crcZero s = true ↔ s.crc = 0x0000#16 := beq_iff_eq

theorem statusByte_crcZero_bit (s : State) : (statusByte s).getLsbD 5 = crcZero s := by
  simp only [statusByte, BitVec.getLsbD_append]
  simp

/-- CRC_BYTE commands fold their bytes into CRC and change nothing else, and the run goes on with the rest of the program. -/
theorem run_crcBytes {s : State} {bytes : List Byte} {rest : List Instr} (hawaits : s.Awaits (bytes.map .crcByte ++ rest)) :
    ∃ host, State.Awaits { s with crc := crc16 s.crc bytes, host := host } rest ∧
      ∀ n, Host.Core.run Sys2Proof.core (bytes.length + n) s =
        Host.Core.run Sys2Proof.core n { s with crc := crc16 s.crc bytes, host := host } := by
  induction bytes generalizing s with
  | nil => exact ⟨s.host, hawaits, fun n => by rw [List.length_nil, Nat.zero_add]; rfl⟩
  | cons b bytes ih =>
    have hexec : exec (.crcByte b) s = .next { s with crc := crc16Byte s.crc b } := rfl
    obtain ⟨host, hrest, hrun⟩ := ih (s := advanceHost { s with crc := crc16Byte s.crc b }) hawaits.tail
    refine ⟨host, hrest, fun n => ?_⟩
    rw [List.length_cons, Nat.add_right_comm, State.Awaits.run_of_exec hawaits hexec, hrun]
    rfl

/-- CRC_BLOCK leaves the body's CRC in CRC and changes nothing else, and the run goes on with the rest of the program. -/
theorem run_crcBlock {s : State} {body : List Byte} {rest : List Instr}
    (hawaits : s.Awaits (expandPseudo (.crcBlock body) ++ rest)) :
    ∃ host, State.Awaits { s with crc := bodyCrc body, host := host } rest ∧
      ∀ n, Host.Core.run Sys2Proof.core (body.length + 1 + n) s =
        Host.Core.run Sys2Proof.core n { s with crc := bodyCrc body, host := host } := by
  have hexec : exec (.crcInit 0#8) s = .next { s with crc := Config.crcInitial } := rfl
  obtain ⟨host, hrest, hrun⟩ := run_crcBytes (s := advanceHost { s with crc := Config.crcInitial }) hawaits.tail
  refine ⟨host, hrest, fun n => ?_⟩
  rw [Nat.add_right_comm, State.Awaits.run_of_exec hawaits hexec, hrun]
  rfl

/-- Register reads after CRC_BLOCK answer what the register map then holds. -/
theorem runProgram_crcBlock_rdRegs {s : State} {body indices bytes : List Byte}
    (hbytes : indices.map (regByte { s with crc := bodyCrc body }) = bytes.map some) :
    ∃ host, runProgram (expandPseudo (.crcBlock body) ++ indices.map .rdReg) s =
      .next { s with crc := bodyCrc body, responses := s.responses ++ bytes, host := host } := by
  obtain ⟨middle, hreads, hrun⟩ := run_crcBlock (issuing_awaits s (expandPseudo (.crcBlock body) ++ indices.map .rdReg))
  obtain ⟨host, hread⟩ := run_rdRegs (s := { s with crc := bodyCrc body, host := middle }) hbytes hreads
  have hlength : (expandPseudo (.crcBlock body) ++ indices.map Instr.rdReg).length = body.length + 1 + indices.length := by
    simp [expandPseudo, Nat.add_right_comm]
  exact ⟨host, by rw [runProgram, hlength, hrun]; exact hread⟩

/-! ### The statements -/

/-- Settles O13: the model's shifts are the iterate of one shift. -/
theorem crcByteIsTheShiftLoop : Obligations.CrcByteIsTheShiftLoop := by
  intro c b
  rw [crc16Byte, crcShifts_eq_iterate]
  congr 1
  funext x
  simp only [crcShift, getLsbD_zero_iff_and_one]
  rfl

/-- Settles O14: the model's recursion is the library's fold. -/
theorem crcOfASequenceIsTheFold : Obligations.CrcOfASequenceIsTheFold :=
  ⟨crc16_eq_foldl, fun body => crc16_eq_foldl _ body, rfl⟩

/-- Settles O15: a fixed input, evaluated. -/
theorem crcTraceOfOneByte : Obligations.CrcTraceOfOneByte := by
  unfold Obligations.CrcTraceOfOneByte
  decide

/-- Settles O16: the shifts are injective and linear over XOR; the table form is `crc16Byte_eq_table`. -/
theorem crcByteIsLinearAndBijective : Obligations.CrcByteIsLinearAndBijective := by
  refine ⟨crc16Byte_bijective, crc16_bijective, fun c1 c2 b1 b2 => ?_, crc16Byte_zero_zero, fun c b => ?_⟩
  · rw [crc16Byte_zero_zero, BitVec.xor_zero, crc16Byte_xor]
  · have hlow : (c ^^^ b.setWidth 16).setWidth 8 = lowByte c ^^^ b := by
      rw [BitVec.setWidth_xor, BitVec.setWidth_setWidth_of_le _ (by decide), BitVec.setWidth_eq]
      rfl
    rw [hlow, crc16Byte_eq_table]

/-- Settles O17: both clauses are the residue of two bytes after a body. -/
theorem residueIsZeroExactlyForTheTrailingCrc : Obligations.ResidueIsZeroExactlyForTheTrailingCrc :=
  ⟨fun body => (crc16_append_pair_eq_zero_iff _ body _ _).2 (highByte_append_lowByte _),
    fun body x y => crc16_append_pair_eq_zero_iff _ body x y⟩

/-- Settles O18: with CRC at 0xFFFF already, the state written is the state itself. -/
theorem crcInitSetsTheInitialValue : Obligations.CrcInitSetsTheInitialValue := by
  refine fun imm s => ⟨rfl, rfl, fun h => ?_⟩
  rw [show exec (.crcInit imm) s = .next { s with crc := 0xFFFF#16 } from rfl, ← h]

/-- Settles O19: the meaning of CRC_BYTE, the fixed points of a zero byte, and R111's table values evaluated. -/
theorem crcByteFoldsOneByte : Obligations.CrcByteFoldsOneByte :=
  ⟨fun _ _ => ⟨rfl, crcZero_iff _⟩, crc16Byte_zeroByte_eq_self_iff, by decide⟩

/-- Settles O20: CRC_BLOCK and the register reads after it; STATUS bit 5 is the residue test. -/
theorem streamingGeneratorAndValidator : Obligations.StreamingGeneratorAndValidator := by
  refine ⟨fun body s => ?_, fun body x y s => ?_⟩
  · obtain ⟨host, hrun⟩ := runProgram_crcBlock_rdRegs (s := s) (body := body) (indices := [0x01#8, 0x02#8])
      (bytes := [lowByte (bodyCrc body), highByte (bodyCrc body)]) rfl
    exact ⟨_, hrun, rfl, rfl, rfl, rfl⟩
  · obtain ⟨host, hrun⟩ := runProgram_crcBlock_rdRegs (s := s) (body := body ++ [x, y]) (indices := [0x00#8])
      (bytes := [statusByte { s with crc := bodyCrc (body ++ [x, y]) }]) rfl
    refine ⟨_, _, hrun, rfl, ?_, rfl, rfl, rfl⟩
    rw [statusByte_crcZero_bit, crcZero_iff]
    exact crc16_append_pair_eq_zero_iff _ body x y

end Sys2Proof.Machine

/-! ## Buffer and header loading

What each command of spec/41_buffer.md answers on each side of its bound, and PTR's range along a run (R120 to R126). -/

namespace Sys2Proof.Machine

/-- Settles O23: BUF_WR's two outcomes; below the end the next state is one store at PTR and a post-increment that does not
wrap. -/
theorem bufWrStoresAtThePointer : Obligations.BufWrStoresAtThePointer := by
  rintro imm s ⟨-, hsize⟩
  refine ⟨fun hend => execBufWr_next.2 (.inl ⟨hend, rfl⟩), fun hlt => ?_⟩
  have hexec : exec (.bufWr imm) s = .next (advancePtr (storeByte (effectiveAddress s) imm s)) :=
    execBufWr_next.2 (.inr ⟨hlt, rfl⟩)
  refine ⟨_, hexec, ptr_succ_toNat hsize hlt, fun a => ?_, rfl⟩
  have haddr : effectiveAddress s < s.fbufSize := hlt
  rw [memRead_advancePtr, memRead_storeByte haddr]
  simp only [@eq_comm Nat a]

/-- Settles O47: the block waits, is reset to PTR = 0 or runs one command, and no outcome of a command takes PTR past
FBUF_SIZE. -/
theorem pointerStaysInRange : Obligations.PointerStaysInRange := by
  refine ⟨Nat.zero_le _, fun s t hlegal hptr hstep => ?_⟩
  obtain ⟨-, rfl⟩ | ⟨p, -, rfl⟩ | ⟨w, u, -, hexec, rfl⟩ := step_next hstep
  · exact hptr
  · exact Nat.zero_le _
  · exact (leaves_of_execCommand hexec).ptrInRange hlegal hptr

/-- Settles O3: MBCODEC's build is legal and its host's list is empty. -/
theorem resetStateMeetsTheInvariant : Obligations.ResetStateMeetsTheInvariant :=
  resetWith_inv (by decide) (Nat.zero_le _)

/-- Settles O21: the meanings of SET_ADDR and SET_FC are the two updates themselves. -/
theorem setAddrAndSetFcLoadTheHeader : Obligations.SetAddrAndSetFcLoadTheHeader :=
  fun _ _ => ⟨rfl, rfl⟩

/-- Settles O22: both sides of SET_PTR's bound, and no byte is over 255. -/
theorem setPtrLoadsThePointerOrSetsOvf : Obligations.SetPtrLoadsThePointerOrSetsOvf := by
  intro imm s
  have hexec : exec (.setPtr imm) s =
      .next (if imm.toNat > s.fbufSize then setOvf s else { s with ptr := indexOperand imm }) := execSetPtr_eq imm s
  refine ⟨fun hover => ?_, fun hle => ⟨indexOperand imm, indexOperand_toNat imm, ?_⟩, fun hsize => ?_⟩
  · rw [hexec, if_pos hover]
    rfl
  · rw [hexec, if_neg (Nat.not_lt.2 hle)]
  · exact (Nat.le_of_lt_succ imm.isLt).trans hsize

/-- Settles O24: BUF_RD's two outcomes, and the fault of its one MemRead on an unwritten byte. -/
theorem bufRdAnswersTheByteAtThePointer : Obligations.BufRdAnswersTheByteAtThePointer := by
  rintro imm s ⟨-, hsize⟩
  refine ⟨fun hend => ?_, fun hlt v hread => ⟨s.ptr + 1#9, ptr_succ_toNat hsize hlt, ?_⟩, fun hlt hunwritten => ?_⟩
  · exact (execBufRd_next imm).2 (.inl ⟨hend, rfl⟩)
  · exact (execBufRd_next imm).2 (.inr ⟨hlt.ne, v, hread, rfl⟩)
  · exact (execBufRd_fault imm).2 ⟨hlt.ne, memRead_error.2 (.inl ⟨hlt, hunwritten, rfl⟩)⟩

end Sys2Proof.Machine

/-! ## ENCODE

What ENCODE leaves on each side of its bound, and that it stops only in its payload (spec/42_frame.md R141 to R145). -/

namespace Sys2Proof.Machine

/-- Settles O27: outside its bound ENCODE makes no access. -/
theorem encodeOutsideItsBoundRecordsLength : Obligations.EncodeOutsideItsBoundRecordsLength := by
  intro imm s hout
  have hbound : encodeInBounds s = false := by
    rw [Bool.eq_false_iff, ne_eq, encodeInBounds_iff]
    omega
  exact (execEncodeFrame_next imm).2 (.inl ⟨hbound, rfl⟩)

section Stops

variable {s : State} {c : Command} {a : Nat}

/-- With PTR in range, a command whose FBUF reads are all of written bytes completes. -/
theorem execCommand_next_of_isWritten (hptr : s.PtrInRange) (hall : ∀ a, ReadsAddress c s a → s.isWritten a = true) :
    ∃ t, execCommand c s = .next t := by
  cases hexec : execCommand c s with
  | next t => exact ⟨t, rfl⟩
  | refused q => exact absurd hexec (execCommand_not_refused c s q)
  | fault f =>
    obtain ⟨a, hreads, herror⟩ := readsAddress_of_fault hptr hexec
    obtain ⟨v, hok⟩ := memRead_of_isWritten (hreads.lt_fbufSize hptr) (hall a hreads)
    rw [herror] at hok
    cases hok

/-- With PTR in range, a command that reads an unwritten byte faults on such a byte. -/
theorem ReadsAddress.fault_of_unwritten (h : ReadsAddress c s a) (hptr : s.PtrInRange) (ha : s.isWritten a = false) :
    ∃ b, ReadsAddress c s b ∧ s.isWritten b = false ∧ execCommand c s = .fault (.fbufUnwritten b) := by
  cases hexec : execCommand c s with
  | next t =>
    rw [h.isWritten_of_next hexec] at ha
    cases ha
  | refused q => exact absurd hexec (execCommand_not_refused c s q)
  | fault f =>
    obtain ⟨b, hreads, herror⟩ := readsAddress_of_fault hptr hexec
    obtain ⟨-, hunwritten, rfl⟩ | ⟨hover, -⟩ := memRead_error.1 herror
    · exact ⟨b, hreads, hunwritten, rfl⟩
    · exact absurd (hreads.lt_fbufSize hptr) (Nat.not_lt.2 hover)

end Stops

/-- Settles O29: within its bound ENCODE reads its payload, and a command that reads an unwritten byte faults on one. -/
theorem encodeFaultsOnAnUnwrittenPayloadByte : Obligations.EncodeFaultsOnAnUnwrittenPayloadByte := by
  rintro imm s hlow hhigh ⟨a, h2, hlt, hunwritten⟩
  have hreads : ReadsAddress (.instr (.encodeFrame imm)) s a := ⟨encodeInBounds_iff.2 ⟨hlow, hhigh⟩, h2, hlt⟩
  obtain ⟨b, ⟨-, hb2, hblt⟩, hbunwritten, hexec⟩ :=
    hreads.fault_of_unwritten (hhigh.trans (Nat.sub_le _ _)) hunwritten
  exact ⟨b, hb2, hblt, hbunwritten, hexec⟩

section Encode

variable {s : State} {body payload : List Byte}

/-- ENCODE reads its own header and then the payload. -/
theorem memReadRange_withHeader_of_holds (hbound : encodeInBounds s = true) (hlength : payload.length = s.ptr.toNat - 2)
    (hholds : s.Holds 2 payload) :
    memReadRange (withHeader s) 0 s.ptr.toNat = .ok (s.addr :: s.fc :: payload) := by
  rw [encodeInBounds_iff] at hbound
  have hsize : 2 ≤ s.fbufSize := by omega
  refine memReadRange_ok.2 ⟨by simp only [List.length_cons]; omega, fun k hk => ?_⟩
  rw [Nat.zero_add, memRead_withHeader hsize]
  match k with
  | 0 => rfl
  | 1 => rfl
  | k + 2 =>
    have hread := hholds k (by simpa using hk)
    rw [Nat.add_comm 2 k] at hread
    rwa [if_neg (by omega), if_neg (by omega)]

/-- Within its bound and on a payload that can be read, ENCODE completes. -/
theorem exec_encodeFrame_of_holds (imm : Byte) (hbound : encodeInBounds s = true)
    (hlength : payload.length = s.ptr.toNat - 2) (hholds : s.Holds 2 payload) :
    exec (.encodeFrame imm) s = .next (withFrame (s.addr :: s.fc :: payload) s) :=
  (execEncodeFrame_next imm).2 (.inr ⟨hbound, _, memReadRange_withHeader_of_holds hbound hlength hholds, rfl⟩)

/-- The frame ENCODE leaves at FBUF[0]: the body it read and the two CRC bytes, low byte first. -/
theorem withFrame_holds (hbound : encodeInBounds s = true) (hbody : memReadRange (withHeader s) 0 s.ptr.toNat = .ok body) :
    (withFrame body s).Holds 0 (body ++ [lowByte (bodyCrc body), highByte (bodyCrc body)]) := by
  obtain ⟨hlength, hholds⟩ := memReadRange_ok.1 hbody
  intro k hk
  rw [List.length_append, show [lowByte (bodyCrc body), highByte (bodyCrc body)].length = 2 from rfl] at hk
  rw [Nat.zero_add, memRead_withFrame hbound]
  obtain hlt | rfl | rfl : k < s.ptr.toNat ∨ k = s.ptr.toNat ∨ k = s.ptr.toNat + 1 := by omega
  · rw [if_neg (by omega), if_neg (by omega), List.getElem_append_left (by omega), ← hholds k (by omega), Nat.zero_add]
  · rw [if_neg (by omega), if_pos rfl, List.getElem_append_right (by omega)]
    simp [hlength]
  · rw [if_pos rfl, List.getElem_append_right (by omega)]
    simp [hlength]

/-- ENCODE within its bound writes FBUF, CRC, LEN, PTR, RESULT and the match bits, and nothing else. -/
theorem withFrame_frame (body : List Byte) (s : State) :
    withFrame body s = { s with
      fbuf := (withFrame body s).fbuf, crc := (withFrame body s).crc, len := (withFrame body s).len
      ptr := (withFrame body s).ptr, result := (withFrame body s).result
      addrMatch := (withFrame body s).addrMatch, fcMatch := (withFrame body s).fcMatch } := by
  apply State.ext <;> simp

end Encode

/-- Settles O28: ENCODE leaves `withFrame` of its header and payload, whose reads are known at every address. -/
theorem encodeBuildsTheFrame : Obligations.EncodeBuildsTheFrame := by
  rintro imm s payload ⟨-, hsize⟩ hlow hhigh hlength hholds
  have hbound : encodeInBounds s = true := encodeInBounds_iff.2 ⟨hlow, hhigh⟩
  have hexec := exec_encodeFrame_of_holds imm hbound hlength hholds
  have hframe := withFrame_holds hbound (memReadRange_withHeader_of_holds hbound hlength hholds)
  -- The body is kept abstract, so that no closing `rfl` evaluates its CRC.
  generalize s.addr :: s.fc :: payload = body at hexec hframe ⊢
  exact ⟨_, hexec, rfl, hframe, fun a ha => memRead_withFrame_of_ne body hbound (by omega) (by omega) (by omega) (by omega),
    ptr_add_two_toNat hsize hbound, rfl, rfl, rfl, rfl, withFrame_frame body s⟩

end Sys2Proof.Machine

/-! ## DECODE

DECODE of a frame that FBUF holds is one check of its bytes, with five outcomes (spec/42_frame.md R150, R153). -/

namespace Sys2Proof.Machine

/-- The trailing CRC of a frame held as a list: its last byte high, the byte before it low (spec/42_frame.md R140). -/
def trailingCrc (frame : List Byte) : Word :=
  frame.getD (frame.length - 1) 0#8 ++ frame.getD (frame.length - 2) 0#8

section Received

variable {s : State} {frame : List Byte}

theorem State.Holds.memRead_getD (h : s.Holds 0 frame) {k : Nat} (hk : k < frame.length) :
    memRead s k = .ok (frame.getD k 0#8) := by
  rw [List.getD_eq_getElem frame 0#8 hk, ← h k hk, Nat.zero_add]

theorem State.Holds.memReadRange_take (h : s.Holds 0 frame) {n : Nat} (hn : n ≤ frame.length) :
    memReadRange s 0 n = .ok (frame.take n) := by
  refine memReadRange_ok.2 ⟨List.length_take_of_le hn, fun k hk => ?_⟩
  rw [List.getElem_take]
  exact h k _

theorem State.Holds.readTrailingCrc_eq (h : s.Holds 0 frame) (hlength : 2 ≤ frame.length) :
    readTrailingCrc s frame.length = .ok (trailingCrc frame) :=
  readTrailingCrc_ok.2 ⟨_, _, h.memRead_getD (by omega), h.memRead_getD (by omega), rfl⟩

/-- DECODE of a frame that can be read is its check. -/
theorem exec_decodeFrame_of_holds (imm : Byte) (h4 : 4 ≤ s.ptr.toNat) (hlength : frame.length = s.ptr.toNat)
    (hholds : s.Holds 0 frame) :
    exec (.decodeFrame imm) s = .next (checkFrame (frame.take (s.ptr.toNat - 2)) (trailingCrc frame) s.ptr.toNat
      { s with len := s.ptr }) := by
  have hrx := hholds.readTrailingCrc_eq (by omega)
  rw [hlength] at hrx
  exact (execDecodeFrame_next imm).2 (.inr ⟨h4, _, _, hholds.memReadRange_take (by omega), hrx, rfl⟩)

end Received

section Check

variable {s : State} {body : List Byte} {rx : Word} {l : Nat}

theorem checkFrame_of_crc_ne (h : bodyCrc body ≠ rx) :
    checkFrame body rx l s =
      { s with crc := bodyCrc body, rxCrc := rx, result := 2#3, addrMatch := false, fcMatch := false } :=
  ((checkFrame_cases body rx l s).resolve_right fun hvalid => h hvalid.1).2

theorem checkFrame_of_crc_eq (h : bodyCrc body = rx) :
    checkFrame body rx l s = acceptFrame body l
      { s with
        crc := bodyCrc body, rxCrc := rx, rxAddr := body.getD 0 0#8, rxFc := body.getD 1 0#8
        addrMatch := decide (body.getD 0 0#8 = s.addr), fcMatch := decide (body.getD 1 0#8 = s.fc) } := by
  simp only [← beq_eq_decide, h]
  exact ((checkFrame_cases body rx l s).resolve_left fun hmismatch => hmismatch.1 h).2

theorem acceptFrame_lateShort (h7 : (body.getD 1 0#8).getLsbD 7 = true) (hl : l < 5) :
    acceptFrame body l s = { s with result := 1#3 } := by
  rw [acceptFrame, if_pos h7, if_pos hl]
  rfl

theorem acceptFrame_exception (h7 : (body.getD 1 0#8).getLsbD 7 = true) (hl : 5 ≤ l) :
    acceptFrame body l s = { s with result := 3#3, exc := body.getD 2 0#8, ptr := 2#9 } := by
  rw [acceptFrame, if_pos h7, if_neg (Nat.not_lt.2 hl)]
  rfl

theorem acceptFrame_ok (h7 : (body.getD 1 0#8).getLsbD 7 = false) :
    acceptFrame body l s = { s with result := 0#3, ptr := 2#9 } := by
  rw [acceptFrame, if_neg (Bool.eq_false_iff.1 h7)]
  rfl

end Check

/-- A byte of a frame's body is the frame's byte. -/
theorem getD_take_of_lt {frame : List Byte} {k n : Nat} (h : k < n) : (frame.take n).getD k 0#8 = frame.getD k 0#8 := by
  rw [List.getD, List.getD, List.getElem?_take_of_lt h]

/-- Settles O30: DECODE is its check of the body and the trailing CRC, which has one outcome for each row. -/
theorem decodeOutcomes : Obligations.DecodeOutcomes := by
  refine ⟨fun imm s hshort => (execDecodeFrame_next imm).2 (.inl ⟨hshort, rfl⟩), fun imm s frame h4 hlength hholds => ?_⟩
  have hexec := exec_decodeFrame_of_holds imm h4 hlength hholds
  rw [trailingCrc, hlength] at hexec
  have h0 : (frame.take (s.ptr.toNat - 2)).getD 0 0#8 = frame.getD 0 0#8 := getD_take_of_lt (by omega)
  have h1 : (frame.take (s.ptr.toNat - 2)).getD 1 0#8 = frame.getD 1 0#8 := getD_take_of_lt (by omega)
  intro c rx a f
  refine ⟨fun hcrc => ?_, fun hcrc h7 hl => ?_, fun hcrc h7 hl => ?_, fun hcrc h7 => ?_⟩
  · rw [hexec, checkFrame_of_crc_ne hcrc]
    rfl
  · rw [hexec, checkFrame_of_crc_eq hcrc, acceptFrame_lateShort (by rwa [h1]) (by omega), h0, h1]
    rfl
  · have h2 : (frame.take (s.ptr.toNat - 2)).getD 2 0#8 = frame.getD 2 0#8 := getD_take_of_lt (by omega)
    rw [hexec, checkFrame_of_crc_eq hcrc, acceptFrame_exception (by rwa [h1]) hl, h0, h1, h2]
    rfl
  · rw [hexec, checkFrame_of_crc_eq hcrc, acceptFrame_ok (by rwa [h1]), h0, h1]
    rfl

end Sys2Proof.Machine

/-! ## DECODE's reads and predicates

Which bytes DECODE reads, and what the host's predicates on STATUS say of a frame (spec/42_frame.md R149, R152). -/

namespace Sys2Proof.Machine

/-- DECODE of 4 bytes or more over another FBUF that holds the same frame ends alike. -/
theorem exec_decodeFrame_withFbuf (imm : Byte) {s : State} {fbuf : Memory} (h4 : 4 ≤ s.ptr.toNat)
    (hsame : ∀ a, a < s.ptr.toNat → fbuf.byteAt a = s.fbuf.byteAt a) :
    exec (.decodeFrame imm) { s with fbuf := fbuf } =
      viewResult (fun t : State => { t with fbuf := fbuf }) (exec (.decodeFrame imm) s) := by
  have hbody : memReadRange { s with fbuf := fbuf } 0 (s.ptr.toNat - 2) = memReadRange s 0 (s.ptr.toNat - 2) :=
    memReadRange_congr_at rfl fun k hk => hsame _ (by omega)
  have hrx : readTrailingCrc { s with fbuf := fbuf } s.ptr.toNat = readTrailingCrc s s.ptr.toNat :=
    readTrailingCrc_congr_at rfl (hsame _ (by omega)) (hsame _ (by omega))
  simp only [exec]
  rw [execDecodeFrame_long imm h4, execDecodeFrame_long (s := { s with fbuf := fbuf }) imm h4, hbody, hrx]
  cases memReadRange s 0 (s.ptr.toNat - 2) with
  | error f => rfl
  | ok body =>
    cases readTrailingCrc s s.ptr.toNat with
    | error f => rfl
    | ok rx => exact congrArg _ (checkFrame_withFbuf body rx s.ptr.toNat { s with len := s.ptr } fbuf)

/-- Settles O31: under 4 bytes by R153's first row; else DECODE's reads are of the frame's bytes, so it ends alike over FBUFs that
agree there, completes when they are written and faults when one is not. -/
theorem decodeReadsExactlyTheFrame : Obligations.DecodeReadsExactlyTheFrame := by
  intro imm s
  refine ⟨fun hshort => ?_, fun h4 fbuf hsame => exec_decodeFrame_withFbuf imm h4 hsame, fun _ hptr hwritten => ?_,
    fun h4 hptr hunwritten => ?_, fun t hexec => ?_⟩
  · exact ⟨{ s with len := s.ptr, result := 1#3, addrMatch := false, fcMatch := false },
      fun fbuf => decodeOutcomes.1 imm { s with fbuf := fbuf } hshort⟩
  · refine execCommand_next_of_isWritten (c := .instr (.decodeFrame imm)) hptr ?_
    rintro a ⟨-, hlt⟩
    simpa using hwritten a hlt
  · obtain ⟨a, hlt, ha⟩ := hunwritten
    have hreads : ReadsAddress (.instr (.decodeFrame imm)) s a := ⟨h4, hlt⟩
    obtain ⟨b, ⟨-, hb⟩, hbunwritten, hfault⟩ := hreads.fault_of_unwritten hptr ha
    exact ⟨b, hb, hbunwritten, hfault⟩
  · exact (leaves_of_execCommand (c := .instr (.decodeFrame imm)) hexec).fbuf_eq (by decide : (0x31#8) ∉ _)

/-- The two trailing bytes of a frame are its body's CRC (spec/42_frame.md R150). -/
def FrameValid (frame : List Byte) : Prop := trailingCrc frame = bodyCrc (frame.take (frame.length - 2))

/-- What DECODE leaves in STATUS of a frame that can be read: the two comparisons where the frame is valid, and OK exactly for a
valid frame with a normal function code. -/
theorem exec_decodeFrame_status (imm : Byte) {s : State} {frame : List Byte} (h4 : 4 ≤ s.ptr.toNat)
    (hlength : frame.length = s.ptr.toNat) (hholds : s.Holds 0 frame) :
    ∃ t, exec (.decodeFrame imm) s = .next t ∧
      (FrameValid frame →
        (t.addrMatch = true ↔ frame.getD 0 0#8 = s.addr) ∧ (t.fcMatch = true ↔ frame.getD 1 0#8 = s.fc)) ∧
      (t.result = 0#3 ↔ FrameValid frame ∧ (frame.getD 1 0#8).getLsbD 7 = false) := by
  obtain ⟨hmismatch, hlate, hexception, hok⟩ := decodeOutcomes.2 imm s frame h4 hlength hholds
  have hvalid_iff : FrameValid frame ↔ crc16 0xFFFF#16 (frame.take (s.ptr.toNat - 2)) =
      frame.getD (s.ptr.toNat - 1) 0#8 ++ frame.getD (s.ptr.toNat - 2) 0#8 := by
    rw [← hlength]
    exact eq_comm
  by_cases hvalid : FrameValid frame
  · have hcrc := hvalid_iff.1 hvalid
    cases h7 : (frame.getD 1 0#8).getLsbD 7 with
    | false => exact ⟨_, hok hcrc h7, fun _ => ⟨decide_eq_true_iff, decide_eq_true_iff⟩, by simp [hvalid]⟩
    | true =>
      obtain hl | hl : s.ptr.toNat = 4 ∨ 5 ≤ s.ptr.toNat := by omega
      · exact ⟨_, hlate hcrc h7 hl, fun _ => ⟨decide_eq_true_iff, decide_eq_true_iff⟩, by simp⟩
      · exact ⟨_, hexception hcrc h7 hl, fun _ => ⟨decide_eq_true_iff, decide_eq_true_iff⟩, by simp⟩
  · exact ⟨_, hmismatch (mt hvalid_iff.2 hvalid), fun h => absurd h hvalid, by simp [hvalid]⟩

theorem responseMatches_iff {s : State} :
    s.responseMatches = true ↔ s.result = 0#3 ∧ s.addrMatch = true ∧ s.fcMatch = true := by
  simp [State.responseMatches, resultOk, and_assoc]

/-- Settles O32: RESULT = OK says the frame is valid, so that the match bits are the comparisons. -/
theorem responseMatchesExactlyAValidMatchingFrame : Obligations.ResponseMatchesExactlyAValidMatchingFrame := by
  intro imm s frame h4 hlength hholds valid
  obtain ⟨t, hexec, hmatch, hresult⟩ := exec_decodeFrame_status imm h4 hlength hholds
  have hvalid : FrameValid frame ↔ valid := by
    rw [FrameValid, trailingCrc, hlength]
    rfl
  rw [hvalid] at hmatch hresult
  refine ⟨t, hexec, hmatch, ?_, ?_⟩
  · rw [responseMatches_iff, hresult]
    constructor
    · rintro ⟨⟨h, h7⟩, haddr, hfc⟩
      have hfc := (hmatch h).2.1 hfc
      exact ⟨h, (hmatch h).1.1 haddr, hfc, hfc ▸ h7⟩
    · rintro ⟨h, haddr, hfc, h7⟩
      exact ⟨⟨h, hfc ▸ h7⟩, (hmatch h).1.2 haddr, (hmatch h).2.2 hfc⟩
  · rw [hresult, ← Bool.not_eq_true t.fcMatch]
    constructor
    · rintro ⟨⟨h, h7⟩, hfc⟩
      exact ⟨h, mt (hmatch h).2.2 hfc, h7⟩
    · rintro ⟨h, hfc, h7⟩
      exact ⟨⟨h, h7⟩, mt (hmatch h).2.1 hfc⟩

end Sys2Proof.Machine

/-! ## Frames through the CRC

A frame is valid exactly when its residue is zero, as the frame ENCODE builds is; replacing one byte changes the residue
(spec/40_crc.md R104, spec/42_frame.md R158, R159). -/

namespace Sys2Proof.Machine

/-- A frame of two bytes or more ends in the two bytes of its trailing CRC, low byte first. -/
theorem take_append_trailing {frame : List Byte} (h : 2 ≤ frame.length) :
    frame.take (frame.length - 2) ++ [frame.getD (frame.length - 2) 0#8, frame.getD (frame.length - 1) 0#8] = frame := by
  have hdrop : frame.drop (frame.length - 2) = [frame.getD (frame.length - 2) 0#8, frame.getD (frame.length - 1) 0#8] := by
    rw [List.getD_eq_getElem _ _ (by omega), List.getD_eq_getElem _ _ (by omega), List.drop_eq_getElem_cons (by omega),
      List.drop_eq_getElem_cons (by omega), List.drop_eq_nil_of_le (by omega)]
    congr 3
    omega
  rw [← hdrop, List.take_append_drop]

theorem frameValid_iff {frame : List Byte} (h : 2 ≤ frame.length) : FrameValid frame ↔ bodyCrc frame = 0#16 := by
  conv_rhs => rw [← take_append_trailing h, bodyCrc, crc16_append_pair_eq_zero_iff]
  rfl

/-- The residue of a body followed by its own CRC is zero. -/
theorem bodyCrc_append_crc (body : List Byte) : bodyCrc (body ++ [lowByte (bodyCrc body), highByte (bodyCrc body)]) = 0#16 :=
  (crc16_append_pair_eq_zero_iff _ body _ _).2 (highByte_append_lowByte _)

theorem crc16Byte_injective_byte (c : Word) : Function.Injective (crc16Byte c) := by
  intro b b' h
  have hwide : b.setWidth 16 = b'.setWidth 16 := (BitVec.xor_right_inj c).1 (crcShifts_injective 8 h)
  simpa using congrArg (BitVec.setWidth 8) hwide

/-- Replacing one byte by another changes the CRC: the byte's fold is injective in it, and the bytes after it fold bijectively. -/
theorem crc16_set_ne (c : Word) {bytes : List Byte} {k : Nat} {b : Byte} (hk : k < bytes.length) (hb : b ≠ bytes[k]) :
    crc16 c (bytes.set k b) ≠ crc16 c bytes := by
  induction bytes generalizing c k with
  | nil => simp at hk
  | cons x xs ih =>
    cases k with
    | zero =>
      intro h
      exact hb (crc16Byte_injective_byte c ((crc16_bijective xs).injective h))
    | succ k => exact ih (crc16Byte c x) (Nat.lt_of_succ_lt_succ hk) hb

section Corruption

variable {s built u : State} {frame : List Byte}

/-- What ENCODE builds is a frame of LEN bytes, 4 or more, whose residue is zero. -/
theorem exists_frame_of_encode {imm : Byte} (hsize : s.fbufSize ≤ 256) (hencode : exec (.encodeFrame imm) s = .next built)
    (hresult : built.result = 0#3) :
    ∃ frame, built.Holds 0 frame ∧ frame.length = built.len.toNat ∧ 4 ≤ frame.length ∧ bodyCrc frame = 0#16 := by
  obtain ⟨-, rfl⟩ | ⟨hbound, body, hbody, rfl⟩ := (execEncodeFrame_next imm).1 hencode
  · cases hresult
  · obtain ⟨hlow, -⟩ := encodeInBounds_iff.1 hbound
    obtain ⟨hlength, -⟩ := memReadRange_ok.1 hbody
    refine ⟨_, withFrame_holds hbound hbody, ?_, ?_, bodyCrc_append_crc body⟩
    · rw [withFrame_len, ptr_add_two_toNat hsize hbound, List.length_append, hlength]
      rfl
    · rw [List.length_append, hlength]
      exact Nat.add_le_add_right hlow 2

theorem State.Holds.set {k : Nat} {b : Byte} (h : built.Holds 0 frame)
    (hreads : ∀ j < frame.length, memRead u j = if j = k then .ok b else memRead built j) : u.Holds 0 (frame.set k b) := by
  intro j hj
  rw [List.length_set] at hj
  rw [Nat.zero_add, hreads j hj, List.getElem_set]
  by_cases hjk : j = k
  · rw [if_pos hjk, if_pos hjk.symm]
  · rw [if_neg hjk, if_neg (Ne.symm hjk), ← h j hj, Nat.zero_add]

end Corruption

/-- Settles O51: the built frame's residue is zero, so the corrupted one's is not, and DECODE takes R153's second row. -/
theorem singleByteCorruptionIsDetected : Obligations.SingleByteCorruptionIsDetected := by
  rintro imm imm' s built u k old new ⟨-, hsize⟩ hencode hresult hk hold hnew hptr hreads
  obtain ⟨frame, hframe, hlength, h4, hresidue⟩ := exists_frame_of_encode hsize hencode hresult
  rw [← hlength] at hk hreads
  have holdByte : frame[k] = old := by
    have hread := hframe k hk
    rw [Nat.zero_add, hold] at hread
    exact (Except.ok.inj hread).symm
  have hinvalid : ¬ FrameValid (frame.set k new) := by
    rw [frameValid_iff (by rw [List.length_set]; omega), ← hresidue]
    exact crc16_set_ne _ hk (by rwa [holdByte])
  have hptrLength : (frame.set k new).length = u.ptr.toNat := by rw [List.length_set, hlength, hptr]
  have hmismatch := (decodeOutcomes.2 imm' u (frame.set k new) (by rw [← hptrLength, List.length_set]; exact h4) hptrLength
    (hframe.set hreads)).1
  rw [← hptrLength] at hmismatch
  exact ⟨_, hmismatch (Ne.symm hinvalid), rfl⟩

end Sys2Proof.Machine

/-! ## Programs over frames

HDR, LOAD and ENCODE run as one piece of a program, READ transmits what FBUF holds, and DECODE takes the frame back
(spec/42_frame.md R145, R158, spec/70_reset_and_hazards.md R257). -/

namespace Sys2Proof.Machine

@[simp] theorem length_frameBytes (a f : Byte) (payload : List Byte) :
    (frameBytes a f payload).length = payload.length + 4 := by
  simp [frameBytes]

theorem take_frameBytes (a f : Byte) (payload : List Byte) :
    (frameBytes a f payload).take (payload.length + 2) = a :: f :: payload :=
  List.take_left' rfl

theorem frameValid_frameBytes (a f : Byte) (payload : List Byte) : FrameValid (frameBytes a f payload) := by
  rw [frameValid_iff (by rw [length_frameBytes]; omega)]
  exact bodyCrc_append_crc _

/-- What HDR, LOAD 2 and ENCODE leave of a state: the frame at FBUF[0] with PTR before it, its length in LEN and its
CRC in CRC. -/
structure Encoded (a f : Byte) (payload : List Byte) (s t : State) : Prop where
  fbufSize : t.fbufSize = s.fbufSize
  addr : t.addr = a
  fc : t.fc = f
  ptr : t.ptr = 0#9
  len : t.len.toNat = payload.length + 4
  crc : t.crc = bodyCrc (a :: f :: payload)
  responses : t.responses = s.responses
  holds : t.Holds 0 (frameBytes a f payload)

/-- After the first command of a program the host has the rest of it to issue. -/
theorem State.Awaits.after_exec {s t : State} {i : Instr} {program : List Instr} (h : s.Awaits (i :: program))
    (hexec : exec i s = .next t) : (advanceHost t).Awaits program := by
  have hhost : t.host = s.host := (leaves_of_execCommand (c := .instr i) hexec).host_eq
  rw [State.Awaits, advanceHost_host, hhost]
  exact h.tail

theorem exec_setPtr_of_le {imm : Byte} {s : State} (h : imm.toNat ≤ s.fbufSize) :
    exec (.setPtr imm) s = .next { s with ptr := indexOperand imm } := by
  rw [show exec (.setPtr imm) s = execSetPtr imm s from rfl, execSetPtr_eq, if_neg (Nat.not_lt.2 h)]

/-- DECODE of a valid frame takes its header and ends by its function code (spec/42_frame.md R150, R152). -/
theorem exec_decodeFrame_of_valid (imm : Byte) {s : State} {frame : List Byte} (h4 : 4 ≤ s.ptr.toNat)
    (hlength : frame.length = s.ptr.toNat) (hholds : s.Holds 0 frame) (hvalid : FrameValid frame) :
    exec (.decodeFrame imm) s = .next (acceptFrame (frame.take (frame.length - 2)) frame.length
      (withReceived (frame.take (frame.length - 2)) s)) := by
  rw [exec_decodeFrame_of_holds imm h4 hlength hholds, ← hlength, hvalid]
  simp only [checkFrame_of_crc_eq, ← beq_eq_decide]
  rfl

section Programs

variable {s t : State} {a f : Byte} {payload bytes : List Byte} {rest : List Instr}

/-- HDR loads the header, and the run goes on with the rest of the program. -/
theorem run_hdr (hawaits : s.Awaits (expandPseudo (.hdr a f) ++ rest)) :
    ∃ host, State.Awaits { s with addr := a, fc := f, host := host } rest ∧
      ∀ n, Host.Core.run Sys2Proof.core (2 + n) s =
        Host.Core.run Sys2Proof.core n { s with addr := a, fc := f, host := host } := by
  have haddr : exec (.setAddr a) s = .next { s with addr := a } := rfl
  have hawaitsFc : State.Awaits (advanceHost { s with addr := a }) (.setFc f :: rest) := State.Awaits.after_exec hawaits haddr
  refine ⟨_, hawaitsFc.tail, fun n => ?_⟩
  rw [show 2 + n = n + 1 + 1 by omega, State.Awaits.run_of_exec hawaits haddr, hawaitsFc.run_of_exec rfl]
  rfl

/-- ENCODE after HDR and LOAD 2 completes and leaves the frame of the fields loaded. -/
theorem Loaded.encode {host : HostSide} (imm : Byte) (h : Loaded 2 payload { s with addr := a, fc := f, host := host } t)
    (hsize : s.fbufSize ≤ 256) (hfit : payload.length + 4 ≤ s.fbufSize) :
    ∃ u, exec (.encodeFrame imm) t = .next u ∧ Encoded a f payload s (advanceHost u) := by
  have hptr := h.ptr
  have hfbufSize : t.fbufSize = s.fbufSize := by rw [h.frame]
  have haddr : t.addr = a := by rw [h.frame]
  have hfc : t.fc = f := by rw [h.frame]
  have hresponses : t.responses = s.responses := by rw [h.frame]
  have hbound : encodeInBounds t = true := encodeInBounds_iff.2 (by omega)
  have hexec := exec_encodeFrame_of_holds imm hbound (by omega) h.holds
  have hframe := withFrame_holds hbound (memReadRange_withHeader_of_holds hbound (by omega) h.holds)
  have hlen : (t.ptr + 2#9).toNat = payload.length + 4 := by
    rw [ptr_add_two_toNat (hfbufSize ▸ hsize) hbound, hptr]
    omega
  rw [haddr, hfc] at hexec hframe
  refine ⟨_, hexec, ?_⟩
  exact {
    fbufSize := by rw [advanceHost_fbufSize, withFrame_fbufSize, hfbufSize]
    addr := by rw [advanceHost_addr, withFrame_addr, haddr]
    fc := by rw [advanceHost_fc, withFrame_fc, hfc]
    ptr := by rw [advanceHost_ptr, withFrame_ptr]
    len := by rw [advanceHost_len, withFrame_len, hlen]
    crc := by rw [advanceHost_crc, withFrame_crc]
    responses := by rw [advanceHost_responses, withFrame_responses, hresponses]
    holds := hframe }

/-- The program that builds a frame from its fields. -/
def encodeProgram (a f : Byte) (payload : List Byte) : List Instr :=
  expandPseudo (.hdr a f) ++ expandPseudo (.load 0x02#8 payload) ++ [.encodeFrame 0x00#8]

/-- HDR, LOAD 2 and ENCODE build the frame, and the run goes on with the rest of the program. -/
theorem run_encodeProgram (hsize : s.fbufSize ≤ 256) (hfit : payload.length + 4 ≤ s.fbufSize)
    (hawaits : s.Awaits (encodeProgram a f payload ++ rest)) :
    ∃ t, Encoded a f payload s t ∧ t.Awaits rest ∧
      ∀ n, Host.Core.run Sys2Proof.core ((encodeProgram a f payload).length + n) s = Host.Core.run Sys2Proof.core n t := by
  rw [encodeProgram, List.append_assoc, List.append_assoc] at hawaits
  obtain ⟨host, hawaitsLoad, hrunHdr⟩ := run_hdr hawaits
  obtain ⟨t, hloaded, hawaitsEncode, hrunLoad⟩ := run_load (s := { s with addr := a, fc := f, host := host }) (off := 0x02#8)
    (bytes := payload) hsize (by show 2 + payload.length ≤ s.fbufSize; omega) hawaitsLoad
  obtain ⟨u, hexec, hencoded⟩ := hloaded.encode 0x00#8 hsize hfit
  refine ⟨advanceHost u, hencoded, hawaitsEncode.after_exec hexec, fun n => ?_⟩
  have hlength : (encodeProgram a f payload).length + n = 2 + (payload.length + 1 + (n + 1)) := by
    simp only [encodeProgram, expandPseudo, List.length_append, List.length_cons, List.length_map, List.length_nil]
    omega
  rw [hlength, hrunHdr, hrunLoad, hawaitsEncode.run_of_exec hexec]

/-- A program that begins by building a frame ends as the rest of it does from there. -/
theorem runProgram_encodeProgram (rest : List Instr) (hsize : s.fbufSize ≤ 256) (hfit : payload.length + 4 ≤ s.fbufSize) :
    ∃ t, Encoded a f payload s t ∧ t.Awaits rest ∧
      runProgram (encodeProgram a f payload ++ rest) s = Host.Core.run Sys2Proof.core rest.length t := by
  obtain ⟨t, h, hawaits, hrun⟩ := run_encodeProgram (s := s.issuing (encodeProgram a f payload ++ rest))
    hsize hfit (issuing_awaits s _)
  refine ⟨t, ⟨h.fbufSize, h.addr, h.fc, h.ptr, h.len, h.crc, h.responses, h.holds⟩, hawaits, ?_⟩
  rw [runProgram, List.length_append, hrun]

/-- BUF_RD commands over bytes that FBUF holds from PTR on answer those bytes, and the run goes on with the rest of the
program. -/
theorem run_read (hsize : s.fbufSize ≤ 256) (hholds : s.Holds s.ptr.toNat bytes)
    (hawaits : s.Awaits (expandPseudo (.read bytes.length) ++ rest)) :
    ∃ ptr host, State.Awaits { s with ptr := ptr, responses := s.responses ++ bytes, host := host } rest ∧
      ∀ n, Host.Core.run Sys2Proof.core (bytes.length + n) s =
        Host.Core.run Sys2Proof.core n { s with ptr := ptr, responses := s.responses ++ bytes, host := host } := by
  induction bytes generalizing s with
  | nil =>
    rw [List.append_nil]
    exact ⟨s.ptr, s.host, hawaits, fun n => by rw [List.length_nil, Nat.zero_add]⟩
  | cons b bytes ih =>
    have hread : memRead s s.ptr.toNat = .ok b := hholds 0 (Nat.succ_pos _)
    have hlt : s.ptr.toNat < s.fbufSize := (memRead_ok.1 hread).1
    have hexec : exec (.bufRd 0x00#8) s = .next (advancePtr (emit b s)) :=
      (execBufRd_next 0x00#8).2 (.inr ⟨hlt.ne, b, hread, rfl⟩)
    have hrest : (advanceHost (advancePtr (emit b s))).Holds (s.ptr + 1#9).toNat bytes := by
      intro k hk
      rw [ptr_succ_toNat hsize hlt, Nat.add_assoc, Nat.add_comm 1 k]
      exact hholds (k + 1) (Nat.succ_lt_succ hk)
    obtain ⟨ptr, host, hawaitsRest, hrun⟩ := ih (s := advanceHost (advancePtr (emit b s))) hsize hrest
      (State.Awaits.after_exec hawaits hexec)
    have hresponses : s.responses ++ b :: bytes = (advanceHost (advancePtr (emit b s))).responses ++ bytes := by simp
    rw [hresponses]
    refine ⟨ptr, host, hawaitsRest, fun n => ?_⟩
    rw [List.length_cons, Nat.add_right_comm, State.Awaits.run_of_exec hawaits hexec, hrun]
    rfl

/-- SET_PTR to the length of the frame just encoded, then DECODE: the frame is valid, so its header is taken. -/
theorem runProgram_encode_decode (hsize : s.fbufSize ≤ 256) (hfit : payload.length + 4 ≤ s.fbufSize)
    (hindex : payload.length + 4 ≤ 255) :
    ∃ t, t.addr = a ∧ t.fc = f ∧
      runProgram (encodeProgram a f payload ++
        [.setPtr (BitVec.ofNat 8 (payload.length + 4)), .decodeFrame 0x00#8]) s =
      .next (advanceHost (acceptFrame (a :: f :: payload) (payload.length + 4) (withReceived (a :: f :: payload) t))) := by
  have himm : (BitVec.ofNat 8 (payload.length + 4)).toNat = payload.length + 4 := by
    rw [BitVec.toNat_ofNat]
    omega
  obtain ⟨t, hencoded, hawaits, hrun⟩ := runProgram_encodeProgram (a := a) (f := f) (payload := payload)
    [.setPtr (BitVec.ofNat 8 (payload.length + 4)), .decodeFrame 0x00#8] hsize hfit
  have hsetPtr := exec_setPtr_of_le (imm := BitVec.ofNat 8 (payload.length + 4)) (s := t)
    (by rw [himm, hencoded.fbufSize]; exact hfit)
  have hptr := (indexOperand_toNat _).trans himm
  have hdecode := exec_decodeFrame_of_valid 0x00#8
    (s := advanceHost { t with ptr := indexOperand (BitVec.ofNat 8 (payload.length + 4)) })
    (by rw [advanceHost_ptr, hptr]; omega) (by rw [length_frameBytes, advanceHost_ptr, hptr]) hencoded.holds
    (frameValid_frameBytes a f payload)
  rw [length_frameBytes, show payload.length + 4 - 2 = payload.length + 2 from rfl, take_frameBytes] at hdecode
  refine ⟨advanceHost { t with ptr := indexOperand (BitVec.ofNat 8 (payload.length + 4)) }, hencoded.addr, hencoded.fc, ?_⟩
  rw [hrun]
  exact (hawaits.run_of_exec hsetPtr 1).trans ((State.Awaits.after_exec hawaits hsetPtr).run_of_exec hdecode 0)

end Programs

/-- Settles O49: the encoded frame is read from PTR = 0 up, and again after REWIND. -/
theorem readLenTransmitsTheEncodedFrame : Obligations.ReadLenTransmitsTheEncodedFrame := by
  rintro a f payload s ⟨-, hsize⟩ hfit load readLen
  have hreadLen : readLen = expandPseudo (.read (frameBytes a f payload).length) := by rw [length_frameBytes]
  have hprogram : load ++ readLen ++ expandPseudo .rewind ++ readLen =
      encodeProgram a f payload ++ (readLen ++ (.setPtr 0x00#8 :: (readLen ++ []))) := by
    rw [List.append_assoc, List.append_assoc, List.append_nil]
    rfl
  rw [hprogram, hreadLen]
  obtain ⟨t, hencoded, hawaitsRead, hrun⟩ := runProgram_encodeProgram (a := a) (f := f) (payload := payload) _ hsize hfit
  have hsizeEncoded : t.fbufSize ≤ 256 := hencoded.fbufSize ▸ hsize
  obtain ⟨ptr, host, hawaitsRewind, hrunRead⟩ :=
    run_read hsizeEncoded (by rw [hencoded.ptr]; exact hencoded.holds) hawaitsRead
  have hrewind := exec_setPtr_of_le (imm := 0x00#8)
    (s := { t with ptr := ptr, responses := t.responses ++ frameBytes a f payload, host := host }) (Nat.zero_le _)
  obtain ⟨ptrEnd, hostEnd, -, hrunAgain⟩ := run_read (s := advanceHost
    { t with ptr := 0#9, responses := t.responses ++ frameBytes a f payload, host := host })
    hsizeEncoded hencoded.holds (State.Awaits.after_exec hawaitsRewind hrewind)
  refine ⟨{ t with
      ptr := ptrEnd, host := hostEnd
      responses := t.responses ++ frameBytes a f payload ++ frameBytes a f payload }, ?_, ?_, hencoded.len, hencoded.crc⟩
  · have hlength (n : Nat) : (expandPseudo (.read n) ++ (Instr.setPtr 0x00#8 :: (expandPseudo (.read n) ++ []))).length =
        n + (n + 0 + 1) := by
      simp [expandPseudo]
    rw [hrun, hlength, hrunRead, State.Awaits.run_of_exec hawaitsRewind hrewind]
    exact hrunAgain 0
  · rw [← hencoded.responses]

/-- Settles O50: DECODE takes the frame ENCODE built, as OK or as an exception response by bit 7 of the function code. -/
theorem encodeThenDecodeRoundTrip : Obligations.EncodeThenDecodeRoundTrip := by
  rintro a f payload s ⟨-, hsize⟩ hfit hindex program
  have hprogram : program = encodeProgram a f payload ++
      [.setPtr (BitVec.ofNat 8 (payload.length + 4)), .decodeFrame 0x00#8] := by
    simp only [program, encodeProgram, List.append_assoc]
    rfl
  rw [hprogram]
  obtain ⟨t, haddr, hfc, hrun⟩ := runProgram_encode_decode (a := a) (f := f) hsize hfit hindex
  have h0 : (a :: f :: payload).getD 0 0#8 = a := rfl
  have h1 : (a :: f :: payload).getD 1 0#8 = f := rfl
  have h2 : (a :: f :: payload).getD 2 0#8 = payload.getD 0 0#8 := rfl
  -- The body is kept abstract, so that no closing `rfl` evaluates its CRC.
  generalize a :: f :: payload = body at *
  refine ⟨fun h7 => ?_, fun h7 hpayload => ?_⟩
  · rw [acceptFrame_ok (by rwa [h1])] at hrun
    exact ⟨_, hrun, rfl, beq_iff_eq.2 (h0.trans haddr.symm), beq_iff_eq.2 (h1.trans hfc.symm), h0, h1, rfl, rfl, rfl⟩
  · rw [acceptFrame_exception (by rwa [h1]) (Nat.add_le_add_right hpayload 4)] at hrun
    exact ⟨_, hrun, rfl, h2⟩

end Sys2Proof.Machine

/-! ## Control commands

NOP, CLR_STATUS, the reserved commands, and the commands that ignore IMM (spec/43_control.md R180, R182 to R184). -/

namespace Sys2Proof.Machine

/-- Settles O34: the meaning of NOP is the state itself. -/
theorem nopChangesNothing : Obligations.NopChangesNothing :=
  fun _ _ => rfl

/-- Settles O5: OP alone makes the command a reserved one, and the host's index moves on after it. -/
theorem reservedWordSetsIllAndNothingElse : Obligations.ReservedWordSetsIllAndNothingElse := by
  intro s w hnext hreserved
  have hdecode : decodeWord w = .reserved (opField w) (immField w) := decodeFields_of_reserved hreserved _
  rw [step_command hnext, hdecode]
  rfl

/-- The list of R183 by opcode. -/
theorem ignoresImm_iff (i : Instr) :
    i.ignoresImm = true ↔ i.opcode ∈ [0x00#8, 0x01#8, 0x22#8, 0x30#8, 0x31#8, 0x41#8] := by
  cases i <;> simp [Instr.ignoresImm, Instr.opcode]

/-- Settles O11: the meaning of each command on the list of R183 does not mention its IMM. -/
theorem ignoredImmMakesNoDifference : Obligations.IgnoredImmMakesNoDifference := by
  refine ⟨ignoresImm_iff, fun i b s hignores => ?_⟩
  cases i with
  | nop | crcInit | bufRd | encodeFrame | decodeFrame | clrStatus => rfl
  | crcByte | setAddr | setFc | setPtr | bufWr | rdReg => cases hignores

/-- With every stored field cleared, only CRC_ZERO is left in the STATUS byte (spec/10_state.md R34, R37). -/
theorem statusByte_clearStatus (s : State) : statusByte (clearStatus s) = if crcZero s then 0x20#8 else 0x00#8 := by
  have hcrcZero : crcZero (clearStatus s) = crcZero s := rfl
  simp only [statusByte, clearStatus_ill, clearStatus_ovf, hcrcZero, clearStatus_fcMatch, clearStatus_addrMatch,
    clearStatus_result]
  cases crcZero s <;> rfl

/-- Settles O37: the state left is `clearStatus`, whose STATUS byte is CRC_ZERO alone. -/
theorem clrStatusClearsTheStoredFields : Obligations.ClrStatusClearsTheStoredFields := by
  refine fun _ s => ⟨clearStatus s, rfl, rfl, fun hzero => ?_, fun hne => ?_⟩
  · rw [statusByte_clearStatus, if_pos ((crcZero_iff s).2 hzero)]
  · rw [statusByte_clearStatus, if_neg (mt (crcZero_iff s).1 hne)]

end Sys2Proof.Machine

/-! ## Reset

What asserting rst_n answers, between commands or during one (spec/70_reset_and_hazards.md R240, R241). -/

namespace Sys2Proof.Machine

/-- A step whose host input is a reset answers the reset state of the same build, whatever command was in progress (R241). -/
theorem step_reset {s : State} {p : Option Word} (h : nextInput s = some (.reset p)) :
    step s = .next (State.resetWith s.fbufSize ⟨s.host.program, s.host.index + 1⟩) := by
  simp only [step, h, serve]
  rfl

/-- CRC_ZERO is clear at CRC = 0xFFFF, so no bit of the STATUS byte is set (R240). -/
@[simp] theorem statusByte_resetWith (size : Nat) (host : HostSide) : statusByte (State.resetWith size host) = 0x00#8 := by
  have hcrcZero : crcZero (State.resetWith size host) = false := rfl
  simp only [statusByte, hcrcZero, resetWith_ill, resetWith_ovf, resetWith_fcMatch, resetWith_addrMatch, resetWith_result]
  rfl

@[simp] theorem isWritten_resetWith (size : Nat) (host : HostSide) (a : Nat) :
    (State.resetWith size host).isWritten a = false := rfl

/-- R240's list holds right after reset on a build of any FBUF_SIZE, wherever the host stands. -/
theorem resetWith_hasResetValues (size : Nat) (host : HostSide) : (State.resetWith size host).HasResetValues := by
  have hstatus : regByte (State.resetWith size host) 0x00#8 = some 0x00#8 :=
    congrArg some (statusByte_resetWith size host)
  have hid : regByte (State.resetWith size host) 0x0E#8 = some 0x01#8 := rfl
  simp [State.HasResetValues, hstatus, hid]

/-- Settles O1: both states are `State.resetWith` of their build and host. -/
theorem resetGivesEveryResetValue : Obligations.ResetGivesEveryResetValue :=
  ⟨resetWith_hasResetValues _ _, fun _ _ hnext => ⟨_, step_reset hnext, resetWith_hasResetValues _ _⟩⟩

end Sys2Proof.Machine

/-! ## What a reset and a wait keep

The build and the host's list outlive a reset, and a step with no command on the port changes nothing
(spec/70_reset_and_hazards.md R241, R242; log entries 2 to 4). -/

namespace Sys2Proof.Machine

/-- Settles O2: `State.resetWith` is given the build's FBUF_SIZE and the host's list, and carries them over. -/
theorem resetKeepsTheBuildAndTheHost : Obligations.ResetKeepsTheBuildAndTheHost := by
  refine ⟨rfl, rfl, fun s t p hnext hstep => ?_⟩
  obtain rfl : State.resetWith s.fbufSize ⟨s.host.program, s.host.index + 1⟩ = t :=
    Host.Outcome.next.inj ((step_reset hnext).symm.trans hstep)
  exact ⟨resetWith_fbufSize _ _, resetWith_host _ _⟩

/-- Settles O6: with no input left a step is `awaitCommand`, which answers the state it was given. -/
theorem blockWaitsWithoutACommand : Obligations.BlockWaitsWithoutACommand := by
  intro s hnone
  rw [step, hnone]
  rfl

end Sys2Proof.Machine

/-! ## The spec's example words

Each word is the one its command assembles to, so the round trip decodes it (spec/30_encoding.md R80, R82). -/

namespace Sys2Proof

/-- A word decodes to the command it is the word of. -/
theorem decodeWord_of_encode_eq {c : Command} {w : Word} (hword : c.encode = w) (hwf : c.wellFormed = true) :
    decodeWord w = c := by
  subst hword
  exact commandWordsAndCommandsAgree.1 c hwf

/-- Settles O8: every example is the word of its command, and 0xFF is a reserved opcode. -/
theorem specExampleWordsDecode : Obligations.SpecExampleWordsDecode := by
  refine ⟨?_, ?_, ?_, ?_, ?_, ?_, ?_, ?_, ?_, ?_, ?_, ?_, ?_, ?_⟩ <;> exact decodeWord_of_encode_eq rfl rfl

end Sys2Proof
